-- ==== Sys2Proof/Word.lean ====
section
/-! DEFINITION. The 32-bit word and the triple of fields: the only two kinds of value the unpacker knows. -/

namespace Sys2Proof

/-- The 32-bit unsigned pattern (R2, R11, R21). Bit 0 is the least significant bit (R10). -/
abbrev Word := BitVec 32

/-- The source's `BitFields`: exactly three unsigned fields of exactly 1, 8 and 23 bits
(R22, R23, R24; R15 and D10: there is no fourth member). -/
@[ext]
structure BitFields where
  /-- Bit 31 of the pattern (R22). -/
  sign : BitVec 1
  /-- Bits 30 to 23 of the pattern, the biased exponent as stored (R23). -/
  exponent : BitVec 8
  /-- Bits 22 to 0 of the pattern, without the implicit leading 1 (R24). -/
  fraction : BitVec 23
  deriving DecidableEq, Repr

end Sys2Proof
end

