-- ==== Sys2Proof/Config.lean ====
section
/-! DEFINITION. What an implementation fixes. The block has no configuration (R16) and its function has no open
parameter (92_eei_decisions.md), so there is no configuration field and no free value here: only the widths of
rule R8, which are literals of the design. The shifts and masks of R8 stand in Machine/Operands.lean, the bias and
the radix in Machine/Reconstruct.lean. The two open parameters of the spec, `T_PD` (timing) and `ROUND32` (an f32
Reconstructor outside the hardware), are used by no rule of the hardware and are left out (log entries 9 and 10). -/

namespace Sys2Proof.Config

/-- `W`: the width of the input pattern (R8). -/
def patternWidth : Nat := 32

/-- `SIGN_W` (R8). -/
def signWidth : Nat := 1

/-- `EXP_W` (R8). -/
def exponentWidth : Nat := 8

/-- `FRAC_W` (R8). -/
def fractionWidth : Nat := 23

end Sys2Proof.Config
end

