-- ==== Sys2Proof/Syntax.lean ====
section
/-! DEFINITION. The operations of the hardware: one, so one constructor (R34, R38). -/

namespace Sys2Proof

/-- The one row of the opcode table. `PACK`, `decode` and `combine` have no row (R38) and no constructor. -/
inductive Instr where
  /-- `EXTRACT <word>`: its one operand is the whole 32-bit word (R41, R44). DESIGN CHOICE (log entry 6): the
  operand is not cut into its three fields here, because cutting it IS the operation. -/
  | extract (bits : Word)
  deriving DecidableEq, Repr

end Sys2Proof
end

