-- ==== Sys2Proof/WellFormed.lean ====
section
/-! DEFINITION. What is a well-formed instruction (every one, R39) and which raw numbers are a word of the
hardware at all (those of exactly 32 bits, R27, R40, D15). -/

namespace Sys2Proof

/-- No word is reserved, illegal or a hint (R39): every instruction is well formed. -/
def Instr.wellFormed : Instr → Bool
  | .extract _ => true

/-- A number given as `nbits` bits, before it is known to be a word of the hardware. -/
structure RawWord where
  nbits : Nat
  value : Nat
  deriving DecidableEq, Repr

/-- The word is always exactly 32 bits; there is no second length (R40). -/
def RawWord.hasPatternWidth (r : RawWord) : Bool := r.nbits == Config.patternWidth

/-- The number fits in 32 bits: "a narrower or wider value is not an input" (R27). -/
def RawWord.fitsPattern (r : RawWord) : Bool := decide (r.value < 2 ^ Config.patternWidth)

/-- Both checks: `r` is an input of the unpacker (R27). -/
def RawWord.wellFormed (r : RawWord) : Bool := r.hasPatternWidth && r.fitsPattern

end Sys2Proof
end

