-- ==== Sys2Proof/Decode.lean ====
section
/-! DEFINITION. The decoder, written from the opcode table's one row, and the encoder. On words the decoder is
total and has no "invalid" verdict (R39); on raw numbers it rejects, by name, what is not a 32-bit word. -/

namespace Sys2Proof

/-- A row of the opcode table: the decoder's test is `(word &&& mask) = fixed` (R38). -/
structure OpcodeRow where
  mnemonic : String
  fixed : Word
  mask : Word
  deriving DecidableEq, Repr

/-- The row's test on a word (R38). -/
def OpcodeRow.selects (r : OpcodeRow) (w : Word) : Bool := (w &&& r.mask) == r.fixed

/-- The table's only row: match 0x00000000, mask 0x00000000 (R38). -/
def extractRow : OpcodeRow := { mnemonic := "EXTRACT", fixed := 0x00000000, mask := 0x00000000 }

/-- The complete opcode table (R38). -/
def opcodeTable : List OpcodeRow := [extractRow]

/-- Every word is an operand of `EXTRACT`, and no bit of the word selects anything (R38, R39). -/
def decode (w : Word) : Instr := .extract w

/-- "Its encoding, the thing applied to port `bits`, is that word itself" (R41). -/
def encode : Instr → Word
  | .extract bits => bits

/-- Why a raw number is not an input of the unpacker (R27, D15). -/
inductive DecodeError where
  /-- It is not given as 32 bits: there is no second length (R40). -/
  | notThirtyTwoBits
  /-- It is 2^32 or more, so it is no 32-bit pattern (R27). -/
  | valueTooWide
  deriving DecidableEq, Repr

/-- Decode a number of `nbits` bits. DEDUCED (log entry 7): how a host widens or narrows a value to 32 bits is
outside the block (R27), so no other width is widened here. -/
def decodeRaw (r : RawWord) : Except DecodeError Instr :=
  if r.hasPatternWidth then
    if r.fitsPattern then .ok (decode (BitVec.ofNat 32 r.value)) else .error .valueTooWide
  else .error .notThirtyTwoBits

/-- The instruction the decoder reads from a row's bits, bit 0 the least significant (R10). -/
def decodeTableWord (nbits w : Nat) : Option Instr :=
  match decodeRaw { nbits := nbits, value := w } with
  | .ok i => some i
  | .error _ => none

end Sys2Proof
end

