-- ==== Sys2Proof/Machine/Operands.lean ====
section
/-! DEFINITION. Taking a word apart and putting it together: the shift-and-mask form of `EXTRACT` (R44 to R47), its
slice form (R48), the spec's inverse `PACK` in its forms (R53, R55), and the field-wise bitwise operations (R58).
`EXTRACT` writes no flag and reads none (R15), so there is no flag computation in this package. -/

namespace Sys2Proof.Machine

/-- `SIGN_SHIFT` (R8). -/
def signShift : Nat := 31

/-- `EXP_SHIFT` (R8). -/
def exponentShift : Nat := 23

/-- `SIGN_MASK`, the mask after the sign shift (R8, D17). -/
def signMask : Word := 0x1

/-- `EXP_MASK`, the mask after the exponent shift (R8). -/
def exponentMask : Word := 0xFF

/-- `FRAC_MASK`, the mask of the fraction, which is not shifted (R8). -/
def fractionMask : Word := 0x7FFFFF

/-- `EXP_MAX`, the largest exponent (R8). -/
def exponentMax : Nat := 255

/-- `FRAC_MAX`, the largest fraction (R8). -/
def fractionMax : Nat := 8388607

/-- The sign mask shifted back to where the field stands in the word (R35). -/
def signInPlace : Word := signMask <<< signShift

/-- The exponent mask shifted back to where the field stands in the word (R35). -/
def exponentInPlace : Word := exponentMask <<< exponentShift

/-- The fraction mask, which stands in place already (R35). -/
def fractionInPlace : Word := fractionMask

/-- "shifted right `k` places, masked": a logical shift of an unsigned word, then AND (R12, R57). -/
def shiftMask (bits : Word) (k : Nat) (mask : Word) : Word := (bits >>> k) &&& mask

/-- Output `sign`: `trunc_1 ((bits >> 31) & 0x1)` (R45). -/
def signOf (bits : Word) : BitVec 1 := (shiftMask bits signShift signMask).setWidth 1

/-- Output `exponent`: `trunc_8 ((bits >> 23) & 0xFF)` (R46). -/
def exponentOf (bits : Word) : BitVec 8 := (shiftMask bits exponentShift exponentMask).setWidth 8

/-- Output `fraction`: `trunc_23 (bits & 0x7FFFFF)`, with no shift (R47). -/
def fractionOf (bits : Word) : BitVec 23 := (bits &&& fractionMask).setWidth 23

/-- The operation `EXTRACT` on a word: three assignments at once, all from the same `bits` (R44). -/
def extract (bits : Word) : BitFields :=
  { sign := signOf bits, exponent := exponentOf bits, fraction := fractionOf bits }

/-- The slice form of `EXTRACT`: `bits[31:31]`, `bits[30:23]`, `bits[22:0]` (R37, R48). -/
def extractSlices (bits : Word) : BitFields :=
  { sign := bits.extractLsb 31 31, exponent := bits.extractLsb 30 23, fraction := bits.extractLsb 22 0 }

/-- `PACK`, the spec's inverse of `EXTRACT`: `sign ++ exponent ++ fraction`. Not an operation of the hardware (R55). -/
def pack (f : BitFields) : Word := f.sign ++ f.exponent ++ f.fraction

/-- `PACK` by shifts and OR, each field zero-extended first (R53, R55). -/
def packByShifts (f : BitFields) : Word :=
  (f.sign.setWidth 32 <<< signShift) ||| (f.exponent.setWidth 32 <<< exponentShift) ||| f.fraction.setWidth 32

/-- `PACK` as a sum of numbers (R53). -/
def packNumber (f : BitFields) : Nat :=
  f.sign.toNat * 2 ^ 31 + f.exponent.toNat * 2 ^ 23 + f.fraction.toNat

/-- Field-wise AND of two triples (R58). -/
def fieldsAnd (f g : BitFields) : BitFields :=
  { sign := f.sign &&& g.sign, exponent := f.exponent &&& g.exponent, fraction := f.fraction &&& g.fraction }

/-- Field-wise OR of two triples (R58). -/
def fieldsOr (f g : BitFields) : BitFields :=
  { sign := f.sign ||| g.sign, exponent := f.exponent ||| g.exponent, fraction := f.fraction ||| g.fraction }

/-- Field-wise XOR of two triples (R58). -/
def fieldsXor (f g : BitFields) : BitFields :=
  { sign := f.sign ^^^ g.sign, exponent := f.exponent ^^^ g.exponent, fraction := f.fraction ^^^ g.fraction }

/-- Field-wise complement of a triple, each field at its own width (R58). -/
def fieldsNot (f : BitFields) : BitFields :=
  { sign := ~~~f.sign, exponent := ~~~f.exponent, fraction := ~~~f.fraction }

/-- A field carried in a wider container: zero-extended, never sign-extended (R37, D10). -/
def widen {n : Nat} (m : Nat) (field : BitVec n) : BitVec m := field.setWidth m

end Sys2Proof.Machine
end

