-- ==== Sys2Proof/Machine/State.lean ====
section
/-! DEFINITION. The state, the reasons a step could stop (none), and the state after reset. The hardware's own
state is `Block`, the type with one element (R19). Beside it State holds the value on the input port and the host's
side of a run, because the host's interface gives a step no other input (log entry 1). -/

namespace Sys2Proof.Machine

/-- The faults of this hardware: there are none, for any word (R49, R73), and the type says so. Nobody raises one. -/
inductive Fault where
  deriving DecidableEq, Repr

/-- The refusals. The hardware refuses nothing (R39, R49). -/
inductive Refusal where
  /-- Kept for the host's form of `exec` (an instruction not modelled yet). Raised by nobody: the one instruction
  has its meaning. Raising it would be safe (the model would stop where the hardware goes on). -/
  | notModelled (mnemonic : String)
  deriving DecidableEq, Repr

/-- The state of the block itself: "the type with one element" (R19). It has no field, because there is no register,
pc, flag, control register or hidden state to hold (R13 to R18). -/
structure Block where
  deriving DecidableEq, Repr

/-- What the host writes down of one evaluation: the word it presented and the triple it saw (D5, R42). -/
structure Observation where
  word : Word
  fields : BitFields
  deriving DecidableEq, Repr

/-- The block, the input port and the host's side of a run. The output ports `sign`, `exponent` and `fraction` are wires, not
state (10_state.md section 5): `Machine.outputs` computes them from `bits` (R20, R86; log entry 2). -/
structure State where
  /-- The hardware's own state, of one element (R19). The other fields are the environment's. -/
  block : Block
  /-- Input port `bits` (R21): the word the host presents now. -/
  bits : Word
  /-- The stimulus lines the host has still to apply, first line first (R42; log entry 3). -/
  stimulus : List Word
  /-- What the host has observed so far, oldest first (R42, D5; log entry 5). -/
  observed : List Observation
  deriving DecidableEq, Repr

/-- Right after reset. The block has its one state, which needs no reset value (R19, R83, R84); no stimulus line is loaded and nothing has been
observed. DESIGN CHOICE (log entry 4): the word on the input port is the host's, and 0x00000000 stands for it. -/
def State.reset : State := { block := {}, bits := 0x00000000, stimulus := [], observed := [] }

end Sys2Proof.Machine
end

