-- ==== Sys2Proof/Machine/Ops.lean ====
section
/-! DEFINITION. The block as the spec gives it, a step that takes the word as its argument and leaves the one-element
state as it is (R19, D5), and the named operations over the ports and over the host's side of a run. There is no register, no
memory and no trap (R13, R25, R76), so there is no operation that reads a register, accesses memory or takes an
exception. -/

namespace Sys2Proof.Machine

/-- The block's own step: the environment chooses any word, the step yields `EXTRACT` of it, the state is unchanged
(R19, R20, D5). A function, so the step relation relates each state to one next state: itself. -/
def evalBlock (b : Block) (w : Word) : Block × BitFields := (b, extract w)

/-- A run of the block: a finite list of words gives the list of their triples (D5, R42). -/
def runBlock (b : Block) : List Word → Block × List BitFields
  | [] => (b, [])
  | w :: rest =>
    let (b', f) := evalBlock b w
    let (b'', fs) := runBlock b' rest
    (b'', f :: fs)

/-- The three output ports at this moment: wires from the input port, `EXTRACT(bits)` (R20). Computed and never
stored, so no result outlives the word that produced it (R86; log entry 2). -/
def outputs (s : State) : BitFields := (evalBlock s.block s.bits).2

/-- Output port `sign` (R22). -/
def signPort (s : State) : BitVec 1 := (outputs s).sign

/-- Output port `exponent` (R23). -/
def exponentPort (s : State) : BitVec 8 := (outputs s).exponent

/-- Output port `fraction` (R24). -/
def fractionPort (s : State) : BitVec 23 := (outputs s).fraction

/-- The host puts a word on port `bits`; it may do so at any time, with any word (R21, R87). -/
def drive (w : Word) (s : State) : State := { s with bits := w }

/-- The host writes down the word on the input port and the triple on the output ports (R42, D5). Reading the
outputs has no side effect on the block (R28). -/
def observe (s : State) : State :=
  { s with observed := s.observed ++ [{ word := s.bits, fields := outputs s }] }

/-- One evaluation: the word is on `bits`, the block takes its step, the outputs are `EXTRACT` of the word and the
host observes them (R19, R20, R41). -/
def evaluate (w : Word) (s : State) : State :=
  observe { drive w s with block := (evalBlock s.block w).1 }

/-- The word to be evaluated next, and the state without its stimulus line. Where no line is left the host goes on
presenting the word that is on the port. DESIGN CHOICE (log entry 3): R42 ends a program at its last line and does
not say what the port carries afterwards. -/
def takeLine (s : State) : Word × State :=
  match s.stimulus with
  | [] => (s.bits, s)
  | w :: rest => (w, { s with stimulus := rest })

/-- The host loads a program: a list of stimulus lines, one word each (R42). -/
def load (program : List Word) (s : State) : State := { s with stimulus := program }

/-- The host puts one more line in front of those it has still to apply (log entry 8). -/
def presentNext (w : Word) (s : State) : State := { s with stimulus := w :: s.stimulus }

/-- The result of a run: the list of the triples observed, one per line (R42). -/
def results (s : State) : List BitFields := s.observed.map (fun o => o.fields)

end Sys2Proof.Machine
end

