-- ==== Sys2Proof/Machine/Extract.lean ====
section
/-! DEFINITION. The meaning of the family's one instruction, `EXTRACT` (40_extract.md). -/

namespace Sys2Proof.Machine

/-- `EXTRACT <word>` (R44): the word is on port `bits` and the output ports carry its three fields. It has one
outcome for every word, a next state (R49); it leaves the block's one-element state as it is (R19), reads and writes
no flag, and raises nothing.
What changes is on the host's side: the word it presents and its record of what it saw. -/
def execExtract (bits : Word) (s : State) : Host.Outcome State Fault Refusal := .next (evaluate bits s)

end Sys2Proof.Machine
end

