-- ==== Sys2Proof/Machine/Step.lean ====
section
/-! DEFINITION. One step is one evaluation of the word the host presents next (D5). -/

namespace Sys2Proof.Machine

/-- Take the next stimulus line (or the word held on the port), decode it, run it. Every step is enabled and every
step has a next state (D5, R49, R88). -/
def step (s : State) : Host.Outcome State Fault Refusal :=
  exec (decode (takeLine s).1) (takeLine s).2

/-- `s` with the word `w` as the host's next stimulus line, so that the very next step evaluates exactly it (log
entry 8). A number that is not a 32-bit word cannot be presented (R27) and changes nothing. -/
def State.withFetchWord (s : State) (nbits w : Nat) : State :=
  if ({ nbits := nbits, value := w } : RawWord).wellFormed then presentNext (BitVec.ofNat 32 w) s else s

end Sys2Proof.Machine
end

