-- ==== Sys2Proof/Machine/Assembly.lean ====
section
/-! DEFINITION. The spec's written forms: a stimulus line `EXTRACT 0xhhhhhhhh` (R41), a program as a list of such
lines (R42), and a result `(sign, exponent, fraction)` (R43). No behaviour is attached to them (D12); a text is a
list of characters. -/

namespace Sys2Proof.Machine

/-- Sixteen digits in capitals, as the spec writes its numerals (R26, R41). -/
def hexCapitals : List Char := ['0', '1', '2', '3', '4', '5', '6', '7', '8', '9', 'A', 'B', 'C', 'D', 'E', 'F']

/-- The same digits in small letters, which are read but never written (DESIGN CHOICE, log entry 11). -/
def hexSmall : List Char := ['0', '1', '2', '3', '4', '5', '6', '7', '8', '9', 'a', 'b', 'c', 'd', 'e', 'f']

/-- The digit of one group of four bits. -/
def hexDigit (v : BitVec 4) : Char := hexCapitals.getD v.toNat '0'

/-- The number a digit stands for. -/
def hexValue (c : Char) : Option Nat :=
  match hexCapitals.idxOf? c with
  | some n => some n
  | none => hexSmall.idxOf? c

/-- The `k` lowest hexadecimal digits of a vector, most significant first, zeros in front (R26, R43). -/
def hexDigits {n : Nat} (v : BitVec n) : Nat → List Char
  | 0 => []
  | k + 1 => hexDigit (v.extractLsb' (4 * k) 4) :: hexDigits v k

/-- Read digits from the most significant on, continuing from the number `acc`. -/
def readHex : List Char → Nat → Option Nat
  | [], acc => some acc
  | c :: rest, acc =>
    match hexValue c with
    | some d => readHex rest (16 * acc + d)
    | none => none

/-- What stands before the digits of a stimulus line (R41). -/
def linePrefix : List Char := ['E', 'X', 'T', 'R', 'A', 'C', 'T', ' ', '0', 'x']

/-- An instruction written as a stimulus line: exactly eight digits, most significant first (R41). -/
def disassemble : Instr → List Char
  | .extract bits => linePrefix ++ hexDigits bits 8

/-- Read a stimulus line (R41): the mnemonic in capitals, one space, `0x` and exactly eight hexadecimal digits.
Anything else is not a stimulus line. -/
def assemble (line : List Char) : Option Instr :=
  if line.take 10 = linePrefix ∧ line.length = 18 then
    match readHex (line.drop 10) 0 with
    | some n => some (decode (BitVec.ofNat 32 n))
    | none => none
  else none

/-- The words of a program, one per stimulus line, in the order written; none if a line is no stimulus line (R42). -/
def assembleProgram : List (List Char) → Option (List Word)
  | [] => some []
  | line :: rest =>
    match assemble line, assembleProgram rest with
    | some i, some ws => some (encode i :: ws)
    | _, _ => none

/-- A field in binary, most significant bit first and always at its full width (R43). -/
def binaryText {n : Nat} (v : BitVec n) : List Char :=
  (List.range n).map (fun k => if v.getMsbD k then '1' else '0')

/-- The three spellings of `exponent` and `fraction` in a result (R43). -/
inductive Spelling where
  /-- As a decimal number. -/
  | decimal
  /-- As a hexadecimal numeral of two digits (exponent) or six (fraction). -/
  | hexadecimal
  /-- As eight binary digits (exponent) or twenty-three (fraction). -/
  | binary
  deriving DecidableEq, Repr

/-- One field in one spelling; `digits` is how many hexadecimal digits the field is written with (R43). -/
def fieldText {n : Nat} (v : BitVec n) (digits : Nat) : Spelling → List Char
  | .decimal => Nat.toDigits 10 v.toNat
  | .hexadecimal => '0' :: 'x' :: hexDigits v digits
  | .binary => binaryText v

/-- A result `(sign, exponent, fraction)`, the sign as one binary digit (R43). -/
def resultText (f : BitFields) (e m : Spelling) : List Char :=
  ['('] ++ binaryText f.sign ++ [',', ' '] ++ fieldText f.exponent 2 e ++ [',', ' '] ++ fieldText f.fraction 6 m ++ [')']

end Sys2Proof.Machine
end

