-- ==== Sys2Proof/Machine/Reconstruct.lean ====
section
/-! DEFINITION. REFERENCE ONLY: the Reconstructor, the software that consumes the three fields
(41_reconstruct_reference.md). It is outside the hardware (R5): no instruction and no step uses it. It is written
down because it is the only statement of what the fields mean, over exact rationals as the spec decides (D11,
C1; log entry 9). -/

namespace Sys2Proof.Machine

/-- `RADIX` (R8). -/
def radix : ℚ := 2

/-- `BIAS` (R8). -/
def bias : ℤ := 127

/-- The source's `DecodedValue` (R59). -/
structure DecodedValue where
  signValue : ℚ
  exponentValue : ℚ
  mantissaValue : ℚ
  deriving DecidableEq

/-- −1 to the power of `sign` (R61). -/
def signValueOf (sign : BitVec 1) : ℚ := (-1) ^ sign.toNat

/-- 2 to the power of `exponent − 127`, the subtraction in a signed domain (R62). -/
def exponentValueOf (exponent : BitVec 8) : ℚ := radix ^ ((exponent.toNat : ℤ) - bias)

/-- 1 plus the weights 2^(i − 23) of the bits of `fraction` that are set; the leading 1 is added for every input
(R63). -/
def mantissaValueOf (fraction : BitVec 23) : ℚ :=
  1 + ∑ i ∈ Finset.range 23, if fraction.getLsbD i then radix ^ ((i : ℤ) - 23) else 0

/-- `decode` of the source: each value from one field alone (R60). -/
def decodeFields (f : BitFields) : DecodedValue :=
  { signValue := signValueOf f.sign, exponentValue := exponentValueOf f.exponent, mantissaValue := mantissaValueOf f.fraction }

/-- `combine`: the sign times the mantissa, and that product times the exponent value (R64). -/
def combine (d : DecodedValue) : ℚ := d.signValue * d.mantissaValue * d.exponentValue

/-- The number the Reconstructor gives for a triple, with no special case for any exponent (R69). -/
def reconstruct (f : BitFields) : ℚ := combine (decodeFields f)

/-- The closed form `V(sign, exponent, fraction) = (−1)^sign · (2^23 + fraction) · 2^(exponent − 150)` (R65). -/
def closedForm (f : BitFields) : ℚ :=
  (-1) ^ f.sign.toNat * (2 ^ 23 + (f.fraction.toNat : ℚ)) * 2 ^ ((f.exponent.toNat : ℤ) - 150)

end Sys2Proof.Machine
end

