-- ==== Sys2Proof/Safety.lean ====
section
/-! DEFINITION. What counts as a safe run, in the terms the statements use. -/

namespace Sys2Proof

/-- The outcome is a next state: no fault, no refusal (R49, R88). -/
def Completes (o : Host.Outcome Machine.State Machine.Fault Machine.Refusal) : Prop :=
  ∃ t, o = .next t

/-- `k` steps of the machine from any state. -/
def runSteps (k : Nat) (s : Machine.State) : Host.Outcome Machine.State Machine.Fault Machine.Refusal :=
  Host.Core.run core k s

/-- The run of a program: its lines are loaded and there is one evaluation per line (R42). -/
def runProgram (p : List Word) (s : Machine.State) : Host.Outcome Machine.State Machine.Fault Machine.Refusal :=
  runSteps p.length (Machine.load p s)

/-- The host's record is faithful: every triple it holds is the three bit selections of the word beside it, written
as slices (R20, R28). -/
def RecordFaithful (s : Machine.State) : Prop :=
  ∀ o ∈ s.observed, o.fields = Machine.extractSlices o.word

/-- The host's record is lossless: from every triple it holds, `PACK` gives the word back (R53). -/
def RecordLossless (s : Machine.State) : Prop :=
  ∀ o ∈ s.observed, Machine.pack o.fields = o.word

/-- The observation a line of a program is to give: the word and its three fields, as slices (R30, R42). -/
def expectedObservation (w : Word) : Machine.Observation :=
  { word := w, fields := Machine.extractSlices w }

end Sys2Proof
end

