-- ==== Sys2Proof/Certificates/Slice0/Obligations.lean ====
section
/-! DEFINITION. The statements for the provers, from the numbered rules of spec/. A clause that rests on the model's
own choice names the log entry in its docstring. -/

open Sys2Proof Sys2Proof.Machine

/-! ### Constants, layout, encoding -/

/-- R8: every constant of the table "Constants of rule R8", and the relations the rule states between them. -/
def Obligations.ConstantsAgree : Prop :=
  Config.patternWidth = 32 ∧ Config.signWidth = 1 ∧ Config.exponentWidth = 8 ∧ Config.fractionWidth = 23 ∧
  signShift = 31 ∧ exponentShift = 23 ∧ signMask = 0x1 ∧ exponentMask = 0xFF ∧ fractionMask = 0x7FFFFF ∧
  exponentMax = 255 ∧ fractionMax = 8388607 ∧ bias = 127 ∧ radix = 2 ∧
  Config.signWidth + Config.exponentWidth + Config.fractionWidth = Config.patternWidth ∧
  exponentMask.toNat = 2 ^ Config.exponentWidth - 1 ∧
  fractionMask.toNat = 2 ^ Config.fractionWidth - 1 ∧ fractionMask.toNat = fractionMax

/-- R35: the three rows of "Fields of format W32": where each mask stands in the word, and that the field is what the
mask in place keeps, moved down by the shift, in the field's range. -/
def Obligations.FieldsOfFormatW32 : Prop :=
  signInPlace = 0x80000000 ∧ exponentInPlace = 0x7F800000 ∧ fractionInPlace = 0x007FFFFF ∧
  ∀ w : Word,
    (w &&& signInPlace) >>> 31 = (extract w).sign.setWidth 32 ∧
    (w &&& exponentInPlace) >>> 23 = (extract w).exponent.setWidth 32 ∧
    (w &&& fractionInPlace) = (extract w).fraction.setWidth 32 ∧
    (extract w).sign.toNat ≤ 1 ∧ (extract w).exponent.toNat ≤ 255 ∧ (extract w).fraction.toNat ≤ 8388607

/-- R36: the in-place masks cover the word, no two overlap, and every bit of the 32 is in exactly one of them. -/
def Obligations.FieldsPartitionWord : Prop :=
  signInPlace ||| exponentInPlace ||| fractionInPlace = 0xFFFFFFFF ∧
  signInPlace &&& exponentInPlace = 0 ∧ signInPlace &&& fractionInPlace = 0 ∧
  exponentInPlace &&& fractionInPlace = 0 ∧
  ∀ i < 32, [signInPlace, exponentInPlace, fractionInPlace].countP (fun m => m.getLsbD i) = 1

/-- R38: one row, EXTRACT, with match 0 and mask 0; it selects every word, and every word decodes to it. -/
def Obligations.OneRowSelectsEveryWord : Prop :=
  opcodeTable = [{ mnemonic := "EXTRACT", fixed := 0x00000000, mask := 0x00000000 }] ∧
  ∀ w : Word, extractRow.selects w = true ∧ decode w = .extract w

/-- R39: no word traps, is reserved, is a hint or a no-op: from any state each one is well formed and gives its one
result, which the output ports then carry. -/
def Obligations.EveryWordIsLegal : Prop :=
  ∀ (w : Word) (s : State), (decode w).wellFormed = true ∧
    ∃ t, exec (decode w) s = .next t ∧ outputs t = extractSlices w ∧
      ∀ u, exec (decode w) s = .next u → u = t

/-- R27, R40: a raw number is an input exactly if it is given as 32 bits and fits in them, and its rejection has a
name; the decoder drops no bit. The rejection of other widths is the model's reading (log entry 7). -/
def Obligations.OnlyThirtyTwoBitWordsDecode : Prop :=
  (∀ nbits v : Nat, decodeTableWord nbits v = none ↔ nbits ≠ 32 ∨ 2 ^ 32 ≤ v) ∧
  (∀ nbits v : Nat, nbits ≠ 32 → decodeRaw { nbits := nbits, value := v } = .error .notThirtyTwoBits) ∧
  (∀ v : Nat, 2 ^ 32 ≤ v → decodeRaw { nbits := 32, value := v } = .error .valueTooWide) ∧
  (∀ i : Instr, decodeTableWord 32 (encode i).toNat = some i) ∧
  (∀ v : Nat, v < 2 ^ 32 → ∃ i, decodeTableWord 32 v = some i ∧ (encode i).toNat = v)

/-- Sanity: words of the spec's vectors S1, S2, T4, T8 and T12 decode, and their fields are the vectors'. -/
def Obligations.FewWordsDecodeAsListed : Prop :=
  decodeTableWord 32 0x3F800000 = some (.extract 0x3F800000) ∧ extract 0x3F800000 = ⟨0, 127, 0⟩ ∧
  decodeTableWord 32 0xC0000000 = some (.extract 0xC0000000) ∧ extract 0xC0000000 = ⟨1, 128, 0⟩ ∧
  decodeTableWord 32 0x7FFFFFFF = some (.extract 0x7FFFFFFF) ∧ extract 0x7FFFFFFF = ⟨0, 255, 0x7FFFFF⟩ ∧
  decodeTableWord 32 0x807FFFFF = some (.extract 0x807FFFFF) ∧ extract 0x807FFFFF = ⟨1, 0, 0x7FFFFF⟩ ∧
  decodeTableWord 32 0x00800000 = some (.extract 0x00800000) ∧ extract 0x00800000 = ⟨0, 1, 0⟩

/-! ### The operation and its outputs -/

/-- R44: from every state, for every word, EXTRACT answers a next state whose output ports carry the fields in the
shift-and-mask form and in the slice form, with the rule's three corner cases and worked example. -/
def Obligations.ExtractGivesThreeFields : Prop :=
  (∀ (w : Word) (s : State), ∃ t, exec (.extract w) s = .next t ∧
    signPort t = ((w >>> 31) &&& 0x1).setWidth 1 ∧ signPort t = w.extractLsb' 31 1 ∧
    exponentPort t = ((w >>> 23) &&& 0xFF).setWidth 8 ∧ exponentPort t = w.extractLsb' 23 8 ∧
    fractionPort t = (w &&& 0x7FFFFF).setWidth 23 ∧ fractionPort t = w.extractLsb' 0 23) ∧
  ∀ s : State,
    (∃ t, exec (.extract 0x00000000) s = .next t ∧ outputs t = ⟨0, 0, 0⟩) ∧
    (∃ t, exec (.extract 0xFFFFFFFF) s = .next t ∧ outputs t = ⟨1, 255, 8388607⟩) ∧
    (∃ t, exec (.extract 0x3F800000) s = .next t ∧ outputs t = ⟨0, 0b01111111, 0⟩)

/-- The exact next state of EXTRACT, and with it its frame: the block's state is the same (R19), the port carries the word, the host's remaining lines are
untouched, and exactly one observation, of this word, is added after the earlier ones. That State holds the host's
lines and record is the model's choice (log entries 1, 3, 5). -/
def Obligations.ExtractNextStateExact : Prop :=
  ∀ (w : Word) (s : State), exec (.extract w) s = .next
    { block := s.block, bits := w, stimulus := s.stimulus,
      observed := s.observed ++
        [{ word := w,
           fields := { sign := w.extractLsb' 31 1, exponent := w.extractLsb' 23 8, fraction := w.extractLsb' 0 23 } }] }

/-- R45: output `sign` in every form the rule gives, its threshold, that bits 30 to 0 do not matter, the negative zero
and the word of −2.0. -/
def Obligations.SignOutput : Prop :=
  ∀ s : State,
    (∀ w : Word, ∃ t, exec (.extract w) s = .next t ∧
      signPort t = ((w >>> 31) &&& 0x1).setWidth 1 ∧ (signPort t).getLsbD 0 = w.getLsbD 31 ∧
      (signPort t).toNat = w.toNat / 2 ^ 31 ∧
      w >>> 31 = (signPort t).setWidth 32 ∧
      (2147483648 ≤ w.toNat → signPort t = 1) ∧ (w.toNat < 2147483648 → signPort t = 0)) ∧
    (∀ v w : Word, v.getLsbD 31 = w.getLsbD 31 → ∃ t u, exec (.extract v) s = .next t ∧
      exec (.extract w) s = .next u ∧ signPort t = signPort u) ∧
    (∃ t, exec (.extract 0x80000000) s = .next t ∧ outputs t = ⟨1, 0, 0⟩) ∧
    (∃ t, exec (.extract 0xC0000000) s = .next t ∧ signPort t = 1)

/-- R46: output `exponent` in every form the rule gives, that bit 31 and bits 22 to 0 do not matter, the words with
exponent 0 and with exponent 255, and the words of −2.0, 0.5 and 1.0. -/
def Obligations.ExponentOutput : Prop :=
  ∀ s : State,
    (∀ w : Word, ∃ t, exec (.extract w) s = .next t ∧
      exponentPort t = ((w >>> 23) &&& 0xFF).setWidth 8 ∧
      (∀ j < 8, (exponentPort t).getLsbD j = w.getLsbD (23 + j)) ∧
      (exponentPort t).toNat = w.toNat / 2 ^ 23 % 256 ∧
      (w >>> 23).getLsbD 8 = w.getLsbD 31 ∧
      (exponentPort t = 0 ↔ w.toNat ≤ 0x007FFFFF ∨ 0x80000000 ≤ w.toNat ∧ w.toNat ≤ 0x807FFFFF) ∧
      (exponentPort t = 255 ↔ 0x7F800000 ≤ w.toNat ∧ w.toNat ≤ 0x7FFFFFFF ∨ 0xFF800000 ≤ w.toNat)) ∧
    (∀ v w : Word, (∀ j < 8, v.getLsbD (23 + j) = w.getLsbD (23 + j)) → ∃ t u, exec (.extract v) s = .next t ∧
      exec (.extract w) s = .next u ∧ exponentPort t = exponentPort u) ∧
    (∃ t, exec (.extract 0xC0000000) s = .next t ∧ exponentPort t = 0b10000000) ∧
    (∃ t, exec (.extract 0x3F000000) s = .next t ∧ exponentPort t = 126) ∧
    (∃ t, exec (.extract 0x3F800000) s = .next t ∧ exponentPort t = 127)

/-- R47: output `fraction` in every form the rule gives, that bits 31 to 23 do not matter, the words with fraction 0
and with fraction 0x7FFFFF, and the word of 1.5. -/
def Obligations.FractionOutput : Prop :=
  ∀ s : State,
    (∀ w : Word, ∃ t, exec (.extract w) s = .next t ∧
      fractionPort t = (w &&& 0x7FFFFF).setWidth 23 ∧
      (∀ i < 23, (fractionPort t).getLsbD i = w.getLsbD i) ∧
      (fractionPort t).toNat = w.toNat % 2 ^ 23 ∧
      (fractionPort t = 0 ↔ 0x00800000 ∣ w.toNat) ∧
      (fractionPort t = 0x7FFFFF ↔ ∀ i < 23, w.getLsbD i = true)) ∧
    (∀ v w : Word, (∀ i < 23, v.getLsbD i = w.getLsbD i) → ∃ t u, exec (.extract v) s = .next t ∧
      exec (.extract w) s = .next u ∧ fractionPort t = fractionPort u) ∧
    (∃ t, exec (.extract 0x3FC00000) s = .next t ∧ fractionPort t = 0x400000)

/-- R37: each output is the slice of the word and nothing else, and a field carried in a wider container has zeros in
the bits above its width. -/
def Obligations.FieldsZeroExtendWhenWidened : Prop :=
  ∀ w : Word,
    extract w = { sign := w.extractLsb 31 31, exponent := w.extractLsb 30 23, fraction := w.extractLsb 22 0 } ∧
    ∀ m i : Nat, i < m →
      (widen m (extract w).sign).getLsbD i = (decide (i < 1) && w.getLsbD 31) ∧
      (widen m (extract w).exponent).getLsbD i = (decide (i < 8) && w.getLsbD (23 + i)) ∧
      (widen m (extract w).fraction).getLsbD i = (decide (i < 23) && w.getLsbD i)

/-- R48: the two lemmas of the rule, on the bits of a logical right shift and of an AND with 2^n − 1, its general
conclusion for any slice, and the equality of the two forms of EXTRACT. -/
def Obligations.ShiftMaskFormIsSliceForm : Prop :=
  (∀ (w : Word) (k j : Nat), (w >>> k).getLsbD j = if j + k ≤ 31 then w.getLsbD (j + k) else false) ∧
  (∀ (w : Word) (n j : Nat), n ≤ 32 →
    (w &&& BitVec.ofNat 32 (2 ^ n - 1)).getLsbD j = if j < n then w.getLsbD j else false) ∧
  (∀ (w : Word) (k n : Nat), k + n ≤ 32 →
    (shiftMask w k (BitVec.ofNat 32 (2 ^ n - 1))).setWidth n = w.extractLsb' k n) ∧
  ∀ w : Word, extract w = extractSlices w

/-- D17 and R45: in a container of any width, even filled with copies of the sign bit and shifted arithmetically, the
two shifts give the right fields once masked; without its mask the arithmetic shift by 31 of a 32-bit word whose top
bit is set is all ones. -/
def Obligations.MasksUndoSignPropagation : Prop :=
  (∀ (w : Word) (n : Nat), 32 ≤ n →
    ((w.signExtend n).sshiftRight 31 &&& BitVec.ofNat n 1).toNat = (extract w).sign.toNat ∧
    ((w.signExtend n).sshiftRight 23 &&& BitVec.ofNat n 0xFF).toNat = (extract w).exponent.toNat ∧
    (w.signExtend n &&& BitVec.ofNat n 0x7FFFFF).toNat = (extract w).fraction.toNat) ∧
  ∀ w : Word, w.getLsbD 31 = true → w.sshiftRight 31 = BitVec.allOnes 32

/-- R49: EXTRACT has a next state for every word, from every state, and it is the only outcome. -/
def Obligations.ExtractIsTotal : Prop :=
  ∀ (w : Word) (s : State), (∃ t, exec (.extract w) s = .next t) ∧
    (∀ r, exec (.extract w) s ≠ .fault r) ∧ (∀ r, exec (.extract w) s ≠ .refused r)

/-- R50: words with exponent field 0 or 255 are unpacked by the same three selections and come out as they stand,
whatever the fraction: NaN payloads, infinities, both zeros, subnormals. -/
def Obligations.NoWordIsSpecial : Prop :=
  ∀ (sg : BitVec 1) (f : BitVec 23) (s : State),
    (∃ t, exec (.extract (sg ++ (255 : BitVec 8) ++ f)) s = .next t ∧ outputs t = ⟨sg, 255, f⟩ ∧
      outputs t = extractSlices (sg ++ (255 : BitVec 8) ++ f)) ∧
    (∃ t, exec (.extract (sg ++ (0 : BitVec 8) ++ f)) s = .next t ∧ outputs t = ⟨sg, 0, f⟩ ∧
      outputs t = extractSlices (sg ++ (0 : BitVec 8) ++ f))

/-- R51: the result is a function of the word alone: from any two states the same word gives the same triple on the
ports, and evaluating it again, after any other word, gives that triple again. -/
def Obligations.ExtractDependsOnWordAlone : Prop :=
  ∀ (w v : Word) (s u : State), ∃ s' u' u'', exec (.extract w) s = .next s' ∧
    exec (.extract v) u = .next u' ∧ exec (.extract w) u' = .next u'' ∧ outputs s' = outputs u''

/-- R52: the ranges of the three fields, and every value of each range occurs. -/
def Obligations.FieldRangesAreExact : Prop :=
  (∀ w : Word, (extract w).sign.toNat ∈ ({0, 1} : Set Nat) ∧ (extract w).exponent.toNat ≤ 255 ∧
    (extract w).fraction.toNat ≤ 8388607) ∧
  (∀ n ≤ 1, ∃ w : Word, (extract w).sign.toNat = n) ∧
  (∀ n ≤ 255, ∃ w : Word, (extract w).exponent.toNat = n) ∧
  (∀ n ≤ 8388607, ∃ w : Word, (extract w).fraction.toNat = n)

/-- R53: the word is recovered from the triple in the three forms of the rule; the OR has no overlapping ones. -/
def Obligations.ExtractIsLossless : Prop :=
  (∀ w : Word,
    w.toNat = (extract w).sign.toNat * 2 ^ 31 + (extract w).exponent.toNat * 2 ^ 23 + (extract w).fraction.toNat ∧
    w = ((extract w).sign.setWidth 32 <<< 31) ||| ((extract w).exponent.setWidth 32 <<< 23) |||
      (extract w).fraction.setWidth 32 ∧
    w = (extract w).sign ++ (extract w).exponent ++ (extract w).fraction) ∧
  ∀ f : BitFields,
    (f.sign.setWidth 32 <<< 31) &&& (f.exponent.setWidth 32 <<< 23) = (0 : Word) ∧
    (f.sign.setWidth 32 <<< 31) &&& f.fraction.setWidth 32 = (0 : Word) ∧
    (f.exponent.setWidth 32 <<< 23) &&& f.fraction.setWidth 32 = (0 : Word)

/-- R54: EXTRACT is a bijection between words and triples; two different words differ in some field, and both sets
have 2^32 elements. -/
def Obligations.ExtractIsBijection : Prop :=
  Function.Bijective extract ∧
  (∀ v w : Word, v ≠ w → (extract v).sign ≠ (extract w).sign ∨ (extract v).exponent ≠ (extract w).exponent ∨
    (extract v).fraction ≠ (extract w).fraction) ∧
  Nat.card Word = 4294967296 ∧ Nat.card BitFields = 4294967296

/-- R55: `PACK` is the concatenation, and equals the OR of the zero-extended shifted fields, for every triple. -/
def Obligations.PackFormsAgree : Prop :=
  ∀ f : BitFields, pack f = f.sign ++ f.exponent ++ f.fraction ∧
    pack f = (f.sign.setWidth 32 <<< 31) ||| (f.exponent.setWidth 32 <<< 23) ||| f.fraction.setWidth 32

/-- R56: both round trips between EXTRACT and `PACK` are identities. -/
def Obligations.PackExtractRoundTrips : Prop :=
  (∀ w : Word, pack (extract w) = w) ∧ ∀ f : BitFields, extract (pack f) = f

/-- R58: every output bit copies exactly one input bit and every input bit goes to exactly one output bit; inverting
one input bit inverts that one output bit and leaves the other outputs; the bitwise operations commute with EXTRACT. -/
def Obligations.OutputBitsCopyInputBits : Prop :=
  (∀ w : Word, (extract w).sign.getLsbD 0 = w.getLsbD 31 ∧
    (∀ j < 8, (extract w).exponent.getLsbD j = w.getLsbD (23 + j)) ∧
    (∀ i < 23, (extract w).fraction.getLsbD i = w.getLsbD i)) ∧
  (∀ (w : Word) (i : Nat), i < 32 → extract (w ^^^ BitVec.twoPow 32 i) =
    if i < 23 then { extract w with fraction := (extract w).fraction ^^^ BitVec.twoPow 23 i }
    else if i < 31 then { extract w with exponent := (extract w).exponent ^^^ BitVec.twoPow 8 (i - 23) }
    else { extract w with sign := ~~~(extract w).sign }) ∧
  ∀ a b : Word,
    extract (a &&& b) = fieldsAnd (extract a) (extract b) ∧ extract (a ||| b) = fieldsOr (extract a) (extract b) ∧
    extract (a ^^^ b) = fieldsXor (extract a) (extract b) ∧ extract (~~~a) = fieldsNot (extract a)

/-! ### Ports, steps, runs -/

/-- R20: at every state the three ports carry the selections of the word on `bits`, and driving another word makes
them carry that word's, with nothing else changed. -/
def Obligations.OutputsFollowInput : Prop :=
  ∀ s : State,
    signPort s = s.bits.extractLsb' 31 1 ∧ exponentPort s = s.bits.extractLsb' 23 8 ∧
    fractionPort s = s.bits.extractLsb' 0 23 ∧
    ∀ w : Word, outputs (drive w s) = extractSlices w ∧ drive w s = { s with bits := w }

/-- R83: whatever word a reset leaves on the input port, from the state after reset the outputs show EXTRACT of it;
an input held at 0 shows (0, 0, 0). -/
def Obligations.ResetForcesNoOutput : Prop :=
  (∀ w0 : Word, outputs (drive w0 State.reset) = extractSlices w0) ∧
  outputs (drive 0x00000000 State.reset) = ⟨0, 0, 0⟩

/-- The state after reset: no line loaded, nothing observed, and 0x00000000 on the port. All three are the model's
choices (log entries 3, 4 and 5). The record is then faithful and lossless. -/
def Obligations.ResetStateAsLogged : Prop :=
  State.reset.bits = 0x00000000 ∧ State.reset.stimulus = [] ∧ State.reset.observed = [] ∧
  RecordFaithful State.reset ∧ RecordLossless State.reset

/-- R86: a result stands exactly as long as its word is presented: after an evaluation, once the host drives a word,
the outputs are that word's, and they are the old result only if it is the old word. -/
def Obligations.ResultLivesWithItsWord : Prop :=
  ∀ (w v : Word) (s : State), ∃ t, exec (.extract w) s = .next t ∧
    outputs (drive v t) = extractSlices v ∧ (outputs (drive v t) = outputs t ↔ v = w)

/-- A step runs the decoded instruction: with a stimulus line left it takes the line and runs what the line decodes
to; with none left it runs what the word on the port decodes to (the model's choice, log entry 3). -/
def Obligations.StepRunsDecodedWord : Prop :=
  (∀ (s : State) (w : Word) (rest : List Word), s.stimulus = w :: rest →
    step s = exec (decode w) { s with stimulus := rest }) ∧
  ∀ s : State, s.stimulus = [] → step s = exec (decode s.bits) s

/-- A word placed for the next step is decoded and run by that step, and taking it leaves nothing else behind (log
entry 8); a number that is no 32-bit word is not placed. -/
def Obligations.PlacedWordIsRunNext : Prop :=
  (∀ (s : State) (nbits v : Nat) (i : Instr), decodeTableWord nbits v = some i →
    step (s.withFetchWord nbits v) = exec i s) ∧
  ∀ (s : State) (nbits v : Nat), decodeTableWord nbits v = none → s.withFetchWord nbits v = s

/-- Every step from every state has a next state, and so has every run of any number of steps: no run faults, is
refused or hangs. -/
def Obligations.NoRunStops : Prop :=
  (∀ s : State, Completes (step s)) ∧ ∀ (k : Nat) (s : State), Completes (runSteps k s)

/-- R28: a step adds one observation; its three fields come from one word, the word that was presented, and lose no
bit of it. That the record stands in State is the model's (log entry 5); so are, with no stimulus line left, that the
word presented is the word held on the port and that it stays there (log entry 3, unsafe for that claim). -/
def Obligations.FieldsOfOneResultShareAWord : Prop :=
  ∀ s : State, ∃ t o, step s = .next t ∧ t.observed = s.observed ++ [o] ∧ o.word = t.bits ∧
    o.word = s.stimulus.headD s.bits ∧ o.fields = extractSlices o.word ∧ pack o.fields = o.word

/-- R18: two states that present the same word, with any history and any lines behind, give the same outputs after a
step and add the same observation. The model's choices in it: with no stimulus line left the word presented is the one
held on the port (log entry 3), and the observation is read from the record in State (log entry 5). -/
def Obligations.NoHiddenState : Prop :=
  ∀ s u : State, s.stimulus.headD s.bits = u.stimulus.headD u.bits → ∃ s' u',
    step s = .next s' ∧ step u = .next u' ∧ outputs s' = outputs u' ∧
    s'.observed.drop s.observed.length = u'.observed.drop u.observed.length

/-- R30: words presented in an order are observed in that order, from any state, and the result of a line depends on
its word alone: not on its place, not on the other lines, not on the state the run started from. -/
def Obligations.EvaluationsAreIndependent : Prop :=
  (∀ (p : List Word) (s : State), ∃ t, runProgram p s = .next t ∧ results t = results s ++ p.map extractSlices) ∧
  ∀ (p q : List Word) (s u s' u' : State) (j k : Nat) (w : Word),
    runProgram p s = .next s' → runProgram q u = .next u' → p[j]? = some w → q[k]? = some w →
    (results s')[s.observed.length + j]? = some (extractSlices w) ∧
    (results u')[u.observed.length + k]? = some (extractSlices w)

/-- R42: a program runs one evaluation per line, in the order written, and ends after its last line: from any state
the exact state after the run. The port then still carries the last word (log entry 3). -/
def Obligations.ProgramRunExact : Prop :=
  ∀ (p : List Word) (s : State), runProgram p s = .next
    { block := s.block, bits := p.getLastD s.bits, stimulus := [], observed := s.observed ++ p.map expectedObservation }

/-- R30, last sentence: reordering, deleting and repeating lines, by positions. A program made of the lines of `q` at
the positions `js`, in the order of `js`, gives, after the results its start state had, exactly the results of `q` at
those positions: a line carries its own result wherever it is moved and however often it is repeated, and the runs may
start from different states. (A position past the end of `q` names no line and no result.) -/
def Obligations.ReorderedProgramReordersResults : Prop :=
  ∀ (q : List Word) (js : List Nat) (s u s' u' : State),
    runProgram q u = .next u' → runProgram (js.filterMap (fun j => q[j]?)) s = .next s' →
    results s' = results s ++ js.filterMap (fun j => ((results u').drop u.observed.length)[j]?)

/-- Invariant: every step keeps a record whose triples are the selections of the words beside them (R20, R28), from
every state, and so does the host's driving of the port. -/
def Obligations.StepKeepsRecordFaithful : Prop :=
  (∀ s t : State, RecordFaithful s → step s = .next t → RecordFaithful t) ∧
  ∀ (w : Word) (s : State), RecordFaithful s → RecordFaithful (drive w s)

/-- Invariant: every step keeps a record from which `PACK` gives every presented word back (R53), from every state. -/
def Obligations.StepKeepsRecordLossless : Prop :=
  ∀ s t : State, RecordLossless s → step s = .next t → RecordLossless t

/-! ### Written forms -/

/-- R41: a stimulus line is EXTRACT, a space, `0x` and eight digits; it reads back as the instruction, and its encoding
is the word. -/
def Obligations.AssemblerRoundTrip : Prop :=
  ∀ w : Word, assemble (disassemble (.extract w)) = some (.extract w) ∧ encode (.extract w) = w ∧
    (disassemble (.extract w)).take 10 = ['E', 'X', 'T', 'R', 'A', 'C', 'T', ' ', '0', 'x'] ∧
    (disassemble (.extract w)).length = 18

/-- Whatever reads as a stimulus line is the written form of what it reads as, but for small letters among its digits
(log entry 11). -/
def Obligations.AssemblerAcceptsOnlyLines : Prop :=
  ∀ (line : List Char) (i : Instr), assemble line = some i →
    line.take 10 ++ (line.drop 10).map Char.toUpper = disassemble i

/-- Programs (R42): written out line by line, the words of a program read back as the program; and whatever list of
lines reads as a program is, line by line and but for small letters among the digits (log entry 11), the written form
of the words it reads as. -/
def Obligations.WrittenProgramRoundTrip : Prop :=
  (∀ p : List Word, assembleProgram (p.map (fun w => disassemble (.extract w))) = some p) ∧
  ∀ (lines : List (List Char)) (p : List Word), assembleProgram lines = some p →
    lines.map (fun line => line.take 10 ++ (line.drop 10).map Char.toUpper)
      = p.map (fun w => disassemble (.extract w))

/-- R43: the binary spellings have the full width of their fields, most significant bit first: written one after the
other they are the word in binary. The hexadecimal ones have two and six digits, the top one of the six at most 7. -/
def Obligations.ResultDigitsAreTheFields : Prop :=
  ∀ w : Word,
    (binaryText (extract w).sign).length = 1 ∧ (binaryText (extract w).exponent).length = 8 ∧
    (binaryText (extract w).fraction).length = 23 ∧
    binaryText (extract w).sign ++ binaryText (extract w).exponent ++ binaryText (extract w).fraction
      = binaryText w ∧
    (hexDigits (extract w).exponent 2).length = 2 ∧
    readHex (hexDigits (extract w).exponent 2) 0 = some (extract w).exponent.toNat ∧
    (hexDigits (extract w).fraction 6).length = 6 ∧
    readHex (hexDigits (extract w).fraction 6) 0 = some (extract w).fraction.toNat ∧
    ∃ d ≤ 7, hexValue ((hexDigits (extract w).fraction 6).headD '0') = some d

/-! ### Reference only: the Reconstructor (outside the hardware, R5; log entry 9) -/

/-- R61: the sign value is +1 or −1 and nothing else. -/
def Obligations.SignValueIsPlusOrMinusOne : Prop :=
  ∀ sg : BitVec 1, (sg = 0 → signValueOf sg = 1) ∧ (sg = 1 → signValueOf sg = -1) ∧
    (signValueOf sg = 1 ∨ signValueOf sg = -1) ∧ signValueOf (extract 0xC0000000).sign = -1

/-- R62: the exponent value is 2^(exponent − 127) with a signed difference from −127 to 128; below the bias it lies
strictly between 0 and 1; the corner cases and worked examples of the rule. -/
def Obligations.ExponentValueIsSignedPower : Prop :=
  (∀ e : BitVec 8, exponentValueOf e = (2 : ℚ) ^ ((e.toNat : ℤ) - 127) ∧
    -127 ≤ (e.toNat : ℤ) - 127 ∧ (e.toNat : ℤ) - 127 ≤ 128 ∧
    (e.toNat < 127 → 0 < exponentValueOf e ∧ exponentValueOf e < 1)) ∧
  exponentValueOf 127 = 1 ∧ exponentValueOf 128 = 2 ∧ exponentValueOf 126 = 1 / 2 ∧
  exponentValueOf 0 = (2 : ℚ) ^ (-127 : ℤ) ∧ exponentValueOf 255 = (2 : ℚ) ^ (128 : ℤ)

/-- R63: the sum of the weights of the set bits, in any order, is 1 + fraction / 2^23; the corner cases and the
worked example of the rule. -/
def Obligations.MantissaValueClosedForm : Prop :=
  (∀ f : BitVec 23, mantissaValueOf f = 1 + (f.toNat : ℚ) / 2 ^ 23 ∧
    ∀ order : List Nat, order.Perm (List.range 23) →
      mantissaValueOf f = 1 + (order.map (fun i => if f.getLsbD i then (2 : ℚ) ^ ((i : ℤ) - 23) else 0)).sum) ∧
  mantissaValueOf 0 = 1 ∧ mantissaValueOf 8388607 = 2 - (2 : ℚ) ^ (-23 : ℤ) ∧ mantissaValueOf 0x400000 = 3 / 2

/-- R65: the reconstructed value in its two closed forms, for every triple; it is never zero, and the bounds of its
magnitude are attained. -/
def Obligations.ReconstructedValueClosedForm : Prop :=
  (∀ f : BitFields,
    reconstruct f = (-1) ^ f.sign.toNat * 2 ^ ((f.exponent.toNat : ℤ) - 127) * (1 + (f.fraction.toNat : ℚ) / 2 ^ 23) ∧
    reconstruct f = closedForm f ∧ reconstruct f ≠ 0 ∧
    (2 : ℚ) ^ (-127 : ℤ) ≤ |reconstruct f| ∧ |reconstruct f| ≤ (2 - (2 : ℚ) ^ (-23 : ℤ)) * 2 ^ 128) ∧
  reconstruct ⟨0, 0, 0⟩ = (2 : ℚ) ^ (-127 : ℤ) ∧
  reconstruct ⟨0, 255, 8388607⟩ = (2 - (2 : ℚ) ^ (-23 : ℤ)) * 2 ^ 128

/-- R67: the mantissa value lies between 1 and 2 − 2^(−23), below 2, for every fraction. -/
def Obligations.MantissaValueRange : Prop :=
  ∀ f : BitVec 23, 1 ≤ mantissaValueOf f ∧ mantissaValueOf f ≤ 2 - (2 : ℚ) ^ (-23 : ℤ) ∧ mantissaValueOf f < 2

/-- R68: the exponent value is strictly positive for every exponent. -/
def Obligations.ExponentValuePositive : Prop :=
  ∀ e : BitVec 8, 0 < exponentValueOf e

/-- R69: the formula is applied unchanged at exponent 0 and at exponent 255: with exponent 0 the factor is 2^(−127)
and the leading 1 stays, with exponent 255 the value is finite and at least 2^128 in magnitude; the four words the
rule lists. -/
def Obligations.EdgeExponentsAreNotSpecial : Prop :=
  (∀ f : BitFields, f.exponent = 0 →
    reconstruct f = (-1) ^ f.sign.toNat * (2 : ℚ) ^ (-127 : ℤ) * (1 + (f.fraction.toNat : ℚ) / 2 ^ 23)) ∧
  (∀ f : BitFields, f.exponent = 255 →
    reconstruct f = (-1) ^ f.sign.toNat * (2 : ℚ) ^ (128 : ℤ) * (1 + (f.fraction.toNat : ℚ) / 2 ^ 23) ∧
    (2 : ℚ) ^ (128 : ℤ) ≤ |reconstruct f|) ∧
  reconstruct (extract 0x00000000) = (2 : ℚ) ^ (-127 : ℤ) ∧
  reconstruct (extract 0x00000001) = (2 ^ 23 + 1) * (2 : ℚ) ^ (-150 : ℤ) ∧
  reconstruct (extract 0x7F800000) = 340282366920938463463374607431768211456 ∧
  reconstruct (extract 0x7FC00000) = 3 / 2 * 2 ^ 128

/-- The reconstructed value determines the word: no two words denote the same number, so the number loses nothing of
the pattern (with R65 and R70, where `bits_of` is read as the inverse). -/
def Obligations.ReconstructedValueDeterminesWord : Prop :=
  ∀ v w : Word, reconstruct (extract v) = reconstruct (extract w) → v = w

/-- What program P5 of the spec shows, for every triple: flipping the sign field negates the value, and adding 1 to an
exponent field below 255 doubles it. -/
def Obligations.EditedFieldsNegateAndDouble : Prop :=
  (∀ f : BitFields, reconstruct { f with sign := ~~~f.sign } = -reconstruct f) ∧
  ∀ f : BitFields, f.exponent ≠ 255 → reconstruct { f with exponent := f.exponent + 1 } = 2 * reconstruct f

/-! ### The block's one-element state, and the whole form of a result -/

/-- R19: the block's state type has one element; its step relation relates that element to itself for every input word
and yields that word's three selections; there is no reset value to choose; and no step of the machine moves it. -/
def Obligations.BlockHasOneState : Prop :=
  Nat.card Block = 1 ∧
  (∀ (b c : Block) (w : Word) (f : BitFields), evalBlock b w = (c, f) ↔ c = b ∧ f = extractSlices w) ∧
  (∀ b : Block, State.reset.block = b) ∧
  ∀ s : State, ∃ t, step s = .next t ∧ t.block = s.block

/-- D5: the machine refines the block. Running any program from any state gives, after the results the state had, the
results of the block run on the same words with the words as arguments of its steps, and leaves the block in the state
its own run ends in, which is the state it began in. That lines and results stand in State is the model's choice (log
entries 1, 3 and 5). -/
def Obligations.MachineRefinesBlock : Prop :=
  ∀ (p : List Word) (s : State), ∃ t, runProgram p s = .next t ∧
    t.block = (runBlock s.block p).1 ∧ results t = results s ++ (runBlock s.block p).2 ∧
    (runBlock s.block p).1 = s.block ∧ (runBlock s.block p).2.length = p.length

/-- R43: the whole form of a result, and the three spellings of its numbers: a decimal numeral of decimal digits, a
hexadecimal numeral of two or six digits after `0x` (the prefix and the separators: log entry 11), eight or
twenty-three binary digits; each reads back as the field. No text spells two triples. -/
def Obligations.ResultTextSpellsTheTriple : Prop :=
  (∀ (f : BitFields) (e m : Spelling), resultText f e m =
    ['(', if f.sign = 1 then '1' else '0', ',', ' '] ++ fieldText f.exponent 2 e ++ [',', ' ']
      ++ fieldText f.fraction 6 m ++ [')']) ∧
  (∀ f : BitFields,
    (fieldText f.exponent 2 .decimal).all Char.isDigit = true ∧
    Nat.ofDigitChars 10 (fieldText f.exponent 2 .decimal) 0 = f.exponent.toNat ∧
    (fieldText f.fraction 6 .decimal).all Char.isDigit = true ∧
    Nat.ofDigitChars 10 (fieldText f.fraction 6 .decimal) 0 = f.fraction.toNat) ∧
  (∀ f : BitFields,
    (∃ ds, fieldText f.exponent 2 .hexadecimal = '0' :: 'x' :: ds ∧ ds.length = 2 ∧
      readHex ds 0 = some f.exponent.toNat) ∧
    ∃ ds, fieldText f.fraction 6 .hexadecimal = '0' :: 'x' :: ds ∧ ds.length = 6 ∧
      readHex ds 0 = some f.fraction.toNat) ∧
  (∀ f : BitFields,
    (fieldText f.exponent 2 .binary).length = 8 ∧
    Nat.ofDigitChars 2 (fieldText f.exponent 2 .binary) 0 = f.exponent.toNat ∧
    (fieldText f.fraction 6 .binary).length = 23 ∧
    Nat.ofDigitChars 2 (fieldText f.fraction 6 .binary) 0 = f.fraction.toNat) ∧
  ∀ (f g : BitFields) (e m : Spelling), resultText f e m = resultText g e m → f = g
end

