-- ==== Sys2Proof/Laws/Assembly.lean ====
section
/-! SUPPORT. The digits of the written forms: what is written is what is read. -/

namespace Sys2Proof.Machine

/-- A written digit reads as the four bits it was written for. -/
theorem hexValue_hexDigit (v : BitVec 4) : hexValue (hexDigit v) = some v.toNat := by
  revert v; decide

theorem hexDigits_length {n : Nat} (v : BitVec n) (k : Nat) : (hexDigits v k).length = k := by
  induction k with
  | zero => rfl
  | succ k ih => simp [hexDigits, ih]

/-- Reading the `k` written digits of a vector gives its lowest `4 * k` bits as a number. -/
theorem readHex_hexDigits {n : Nat} (v : BitVec n) (k acc : Nat) :
    readHex (hexDigits v k) acc = some (acc * 16 ^ k + v.toNat % 16 ^ k) := by
  have weight : ∀ k : Nat, (2 : Nat) ^ (4 * k) = 16 ^ k := fun k => by rw [pow_mul]; norm_num
  induction k generalizing acc with
  | zero => simp [hexDigits, readHex, Nat.mod_one]
  | succ k ih =>
    simp only [hexDigits, readHex, hexValue_hexDigit, ih, BitVec.extractLsb'_toNat, Nat.shiftRight_eq_div_pow,
      Option.some.injEq]
    rw [weight, Nat.pow_succ 16 k, Nat.mod_mul (a := 16 ^ k) (b := 16) (x := v.toNat), show (2 : Nat) ^ 4 = 16 from rfl]
    generalize v.toNat / 16 ^ k % 16 = digit
    ring

theorem binaryText_length {n : Nat} (v : BitVec n) : (binaryText v).length = n := by
  simp [binaryText]

end Sys2Proof.Machine
end

