-- ==== Sys2Proof/Laws/Decode.lean ====
section
/-! SUPPORT. One spec lemma for the decoder of raw numbers and one for placing a word. -/

namespace Sys2Proof

theorem RawWord.hasPatternWidth_iff (r : RawWord) : r.hasPatternWidth = true ↔ r.nbits = 32 := beq_iff_eq

theorem RawWord.fitsPattern_iff (r : RawWord) : r.fitsPattern = true ↔ r.value < 2 ^ 32 := decide_eq_true_iff

/-- The decoder of raw numbers in one line. -/
theorem decodeTableWord_eq (nbits v : Nat) :
    decodeTableWord nbits v
      = if nbits = 32 ∧ v < 2 ^ 32 then some (.extract (BitVec.ofNat 32 v)) else none := by
  by_cases a : nbits = 32 <;> by_cases b : v < 2 ^ 32 <;>
    simp only [decodeTableWord, decodeRaw, RawWord.hasPatternWidth_iff, RawWord.fitsPattern_iff, a, b, decode,
      if_true, if_false, and_self, and_true, and_false]

/-- Placing a raw number in one line. -/
theorem Machine.withFetchWord_eq (s : Machine.State) (nbits v : Nat) :
    s.withFetchWord nbits v
      = if nbits = 32 ∧ v < 2 ^ 32 then Machine.presentNext (BitVec.ofNat 32 v) s else s := by
  simp only [Machine.State.withFetchWord, RawWord.wellFormed, Bool.and_eq_true, RawWord.hasPatternWidth_iff,
    RawWord.fitsPattern_iff]

end Sys2Proof
end

