-- ==== Sys2Proof/Laws/Operands.lean ====
section
/-! SUPPORT. One spec lemma per function of Machine/Operands.lean: which bit of the word each result bit is, and the
value of each result as a number. -/

namespace Sys2Proof.Machine

/-- Every bit of a shifted and masked word. -/
theorem shiftMask_getLsbD (bits mask : Word) (k i : Nat) :
    (shiftMask bits k mask).getLsbD i = (bits.getLsbD (k + i) && mask.getLsbD i) := by
  simp [shiftMask]

theorem signOf_getLsbD (bits : Word) (i : Nat) :
    (signOf bits).getLsbD i = (decide (i < 1) && bits.getLsbD (31 + i)) := by
  by_cases h : i < 1
  · obtain rfl : i = 0 := by omega
    simp [signOf, shiftMask, signShift, signMask]
  · simp [signOf, h]

theorem exponentMask_getLsbD (i : Nat) : exponentMask.getLsbD i = decide (i < 8) := by
  have h : exponentMask.toNat = 2 ^ 8 - 1 := rfl
  rw [← BitVec.testBit_toNat, h, Nat.testBit_two_pow_sub_one]

theorem fractionMask_getLsbD (i : Nat) : fractionMask.getLsbD i = decide (i < 23) := by
  have h : fractionMask.toNat = 2 ^ 23 - 1 := rfl
  rw [← BitVec.testBit_toNat, h, Nat.testBit_two_pow_sub_one]

theorem exponentOf_getLsbD (bits : Word) (i : Nat) :
    (exponentOf bits).getLsbD i = (decide (i < 8) && bits.getLsbD (23 + i)) := by
  by_cases h : i < 8 <;>
    simp [exponentOf, BitVec.getLsbD_setWidth, shiftMask_getLsbD, exponentMask_getLsbD, exponentShift, h]

theorem fractionOf_getLsbD (bits : Word) (i : Nat) :
    (fractionOf bits).getLsbD i = (decide (i < 23) && bits.getLsbD i) := by
  by_cases h : i < 23 <;>
    simp [fractionOf, BitVec.getLsbD_setWidth, fractionMask_getLsbD, h]

/-- `sign` as a number. -/
theorem signOf_toNat (bits : Word) : (signOf bits).toNat = bits.toNat / 2 ^ 31 := by
  have h := bits.isLt
  simp only [signOf, shiftMask, signShift, signMask, BitVec.toNat_setWidth, BitVec.toNat_and,
    BitVec.toNat_ushiftRight, Nat.shiftRight_eq_div_pow]
  have : ((0x1 : Word).toNat) = 2 ^ 1 - 1 := rfl
  rw [this, Nat.and_two_pow_sub_one_eq_mod]
  omega

/-- `exponent` as a number. -/
theorem exponentOf_toNat (bits : Word) : (exponentOf bits).toNat = bits.toNat / 2 ^ 23 % 256 := by
  simp only [exponentOf, shiftMask, exponentShift, exponentMask, BitVec.toNat_setWidth, BitVec.toNat_and,
    BitVec.toNat_ushiftRight, Nat.shiftRight_eq_div_pow]
  have : ((0xFF : Word).toNat) = 2 ^ 8 - 1 := rfl
  rw [this, Nat.and_two_pow_sub_one_eq_mod]
  omega

/-- `fraction` as a number. -/
theorem fractionOf_toNat (bits : Word) : (fractionOf bits).toNat = bits.toNat % 2 ^ 23 := by
  simp only [fractionOf, fractionMask, BitVec.toNat_setWidth, BitVec.toNat_and]
  have : ((0x7FFFFF : Word).toNat) = 2 ^ 23 - 1 := rfl
  rw [this, Nat.and_two_pow_sub_one_eq_mod]
  omega

/-- `PACK` as a number: the three fields occupy disjoint places. -/
theorem pack_toNat (f : BitFields) : (pack f).toNat = packNumber f := by
  have he := f.exponent.isLt
  have hf := f.fraction.isLt
  simp only [pack, packNumber, BitVec.toNat_append, Nat.shiftLeft_eq]
  rw [← Nat.shiftLeft_eq, ← Nat.shiftLeft_eq, ← Nat.shiftLeft_add_eq_or_of_lt he,
    ← Nat.shiftLeft_add_eq_or_of_lt hf, Nat.shiftLeft_eq, Nat.shiftLeft_eq]
  omega

end Sys2Proof.Machine
end

