-- ==== Sys2Proof/Laws/PerInstr.lean ====
section
/-! SUPPORT. Statements made per instruction, about the instruction as syntax: every instruction is well formed and
decoding its word gives it back. -/

namespace Sys2Proof.Laws.RoundTrip

/-- The instruction is well formed (R39) and its word decodes to it (R41). -/
def Statement (i : Instr) : Prop := i.wellFormed = true ∧ decode (encode i) = i

theorem extract (bits : Word) : Statement (.extract bits) := ⟨rfl, rfl⟩

end Sys2Proof.Laws.RoundTrip
end

