-- ==== Sys2Proof/Laws/Reconstruct.lean ====
section
/-! SUPPORT. The factors of the reconstructed value. -/

namespace Sys2Proof.Machine

theorem exponentValueOf_eq (e : BitVec 8) : exponentValueOf e = (2 : ℚ) ^ ((e.toNat : ℤ) - 127) := rfl

theorem reconstruct_eq_factors (f : BitFields) :
    reconstruct f = signValueOf f.sign * mantissaValueOf f.fraction * exponentValueOf f.exponent := rfl

/-- The weights of the set bits below `k` add up to the low `k` bits as a number over 2^23. -/
theorem weights_below (f : BitVec 23) (k : Nat) :
    (∑ i ∈ Finset.range k, if f.getLsbD i then radix ^ ((i : ℤ) - 23) else 0)
      = ((f.toNat % 2 ^ k : Nat) : ℚ) / 2 ^ 23 := by
  induction k with
  | zero => simp [Nat.mod_one]
  | succ k ih =>
    have weight : radix ^ ((k : ℤ) - 23) = 2 ^ k / 2 ^ 23 := by
      rw [radix, zpow_sub₀ (by norm_num)]; norm_cast
    have bit : f.toNat.testBit k = decide (f.toNat / 2 ^ k % 2 = 1) := Nat.testBit_eq_decide_div_mod_eq
    rw [Finset.sum_range_succ, ih, ← BitVec.testBit_toNat, Nat.mod_pow_succ, weight, bit]
    rcases Nat.mod_two_eq_zero_or_one (f.toNat / 2 ^ k) with h | h <;> rw [h]
    · simp
    · simp; ring

end Sys2Proof.Machine
end

