-- ==== Sys2Proof/Laws/State.lean ====
section
/-! SUPPORT. What each named operation does to each field of State: one lemma per field per operation. -/

namespace Sys2Proof.Machine

@[simp] theorem evalBlock_state (b : Block) (w : Word) : (evalBlock b w).1 = b := rfl
@[simp] theorem evalBlock_fields (b : Block) (w : Word) : (evalBlock b w).2 = extract w := rfl

@[simp] theorem runBlock_nil (b : Block) : runBlock b [] = (b, []) := rfl

/-- A run of the block ends in the state it began in and gives `EXTRACT` of each word. -/
@[simp] theorem runBlock_cons (b : Block) (w : Word) (p : List Word) :
    runBlock b (w :: p) = ((runBlock b p).1, extract w :: (runBlock b p).2) := rfl

@[simp] theorem drive_block (w : Word) (s : State) : (drive w s).block = s.block := rfl
@[simp] theorem observe_block (s : State) : (observe s).block = s.block := rfl
@[simp] theorem evaluate_block (w : Word) (s : State) : (evaluate w s).block = s.block := rfl
@[simp] theorem load_block (p : List Word) (s : State) : (load p s).block = s.block := rfl
@[simp] theorem presentNext_block (w : Word) (s : State) : (presentNext w s).block = s.block := rfl

@[simp] theorem drive_bits (w : Word) (s : State) : (drive w s).bits = w := rfl
@[simp] theorem drive_stimulus (w : Word) (s : State) : (drive w s).stimulus = s.stimulus := rfl
@[simp] theorem drive_observed (w : Word) (s : State) : (drive w s).observed = s.observed := rfl

@[simp] theorem observe_bits (s : State) : (observe s).bits = s.bits := rfl
@[simp] theorem observe_stimulus (s : State) : (observe s).stimulus = s.stimulus := rfl
@[simp] theorem observe_observed (s : State) :
    (observe s).observed = s.observed ++ [{ word := s.bits, fields := extract s.bits }] := rfl

@[simp] theorem evaluate_bits (w : Word) (s : State) : (evaluate w s).bits = w := rfl
@[simp] theorem evaluate_stimulus (w : Word) (s : State) : (evaluate w s).stimulus = s.stimulus := rfl
@[simp] theorem evaluate_observed (w : Word) (s : State) :
    (evaluate w s).observed = s.observed ++ [{ word := w, fields := extract w }] := rfl

@[simp] theorem load_bits (p : List Word) (s : State) : (load p s).bits = s.bits := rfl
@[simp] theorem load_stimulus (p : List Word) (s : State) : (load p s).stimulus = p := rfl
@[simp] theorem load_observed (p : List Word) (s : State) : (load p s).observed = s.observed := rfl

@[simp] theorem presentNext_bits (w : Word) (s : State) : (presentNext w s).bits = s.bits := rfl
@[simp] theorem presentNext_stimulus (w : Word) (s : State) :
    (presentNext w s).stimulus = w :: s.stimulus := rfl
@[simp] theorem presentNext_observed (w : Word) (s : State) :
    (presentNext w s).observed = s.observed := rfl

@[simp] theorem outputs_drive (w : Word) (s : State) : outputs (drive w s) = extract w := rfl
@[simp] theorem outputs_evaluate (w : Word) (s : State) : outputs (evaluate w s) = extract w := rfl

@[simp] theorem results_evaluate (w : Word) (s : State) :
    results (evaluate w s) = results s ++ [extract w] := by
  simp [results]

end Sys2Proof.Machine
end

