-- ==== Sys2Proof/Laws/Step.lean ====
section
/-! SUPPORT. Everything exec and step can do, said once. -/

namespace Sys2Proof.Machine

/-- The meaning of `EXTRACT` is one evaluation. -/
theorem execExtract_eq (w : Word) (s : State) : execExtract w s = .next (evaluate w s) := rfl

/-- All that `exec` can answer. -/
theorem exec_cases {i : Instr} {s t : State} (h : exec i s = .next t) :
    ∃ w, i = .extract w ∧ t = evaluate w s := by
  cases i with
  | extract w => exact ⟨w, rfl, by simpa [exec, execExtract] using h.symm⟩

theorem takeLine_nil {s : State} (h : s.stimulus = []) : takeLine s = (s.bits, s) := by
  simp [takeLine, h]

theorem takeLine_cons {s : State} {w : Word} {rest : List Word} (h : s.stimulus = w :: rest) :
    takeLine s = (w, { s with stimulus := rest }) := by
  simp [takeLine, h]

/-- Taking a line leaves the block, the port and the record alone. -/
theorem takeLine_frame (s : State) :
    (takeLine s).2.block = s.block ∧ (takeLine s).2.bits = s.bits ∧ (takeLine s).2.observed = s.observed := by
  unfold takeLine
  split <;> exact ⟨rfl, rfl, rfl⟩

/-- All that `step` can do: one evaluation of the word taken. -/
theorem step_eq (s : State) : step s = .next (evaluate (takeLine s).1 (takeLine s).2) := rfl

/-- A line put in front is the one taken, and taking it gives the state back. -/
theorem takeLine_presentNext (w : Word) (s : State) : takeLine (presentNext w s) = (w, s) := rfl

end Sys2Proof.Machine
end

