-- ==== Sys2Proof/Laws/Run.lean ====
section
/-! SUPPORT. How a run of k steps unfolds. -/

namespace Sys2Proof

open Machine

theorem runSteps_zero (s : State) : runSteps 0 s = .next s := rfl

/-- One more step in front: no run stops, so the step's next state is where the rest begins. -/
theorem runSteps_succ (k : Nat) (s : State) :
    runSteps (k + 1) s = runSteps k (evaluate (takeLine s).1 (takeLine s).2) := rfl

/-- The run of a program evaluates its first line and goes on with the rest. -/
theorem runProgram_cons (w : Word) (p : List Word) (s : State) :
    runProgram (w :: p) s = runProgram p (evaluate w s) := rfl

theorem runProgram_nil (s : State) : runProgram [] s = .next (load [] s) := rfl

end Sys2Proof
end

