-- ==== Sys2Proof/Tests/Slice0.lean ====
section
/-! SUPPORT. Tests whose expected values are the vectors of spec/95_test_vectors.md or hand calculation from the
rules, and for each statement with hypotheses a named witness that meets them. -/

namespace Sys2Proof.Tests

open Sys2Proof Sys2Proof.Machine

/-! ### The smoke test of WellFormed: one ill-formed number for each check, and the nearest well-formed one -/

theorem test_not_thirty_two_bits : ({ nbits := 31, value := 0 } : RawWord).hasPatternWidth = false := by decide
theorem test_too_wide : ({ nbits := 32, value := 2 ^ 32 } : RawWord).fitsPattern = false := by decide
theorem test_ill_formed_refused :
    decodeTableWord 31 0 = none ∧ decodeTableWord 33 0 = none ∧ decodeTableWord 32 (2 ^ 32) = none := by decide
theorem test_widest_word_accepted : decodeTableWord 32 (2 ^ 32 - 1) = some (.extract 0xFFFFFFFF) := by decide
theorem test_every_instruction_well_formed : (Instr.extract 0x7FA00000).wellFormed = true := by decide

/-! ### Decoding, and the fields of words written out bit by bit (R35: s eeeeeeee fffffffffffffffffffffff) -/

/-- Vector S1, the pattern of 1.0. -/
theorem test_decode_one :
    decodeTableWord 32 0b0_01111111_00000000000000000000000 = some (.extract 0x3F800000) ∧
    extract 0x3F800000 = ⟨0, 0b01111111, 0⟩ := by decide

/-- Vector S2, the pattern of −2.0. -/
theorem test_decode_minus_two :
    decodeTableWord 32 0b1_10000000_00000000000000000000000 = some (.extract 0xC0000000) ∧
    extract 0xC0000000 = ⟨1, 0b10000000, 0⟩ := by decide

/-- Vector S4, the pattern of 1.5: only bit 22 of the fraction. -/
theorem test_decode_one_and_a_half :
    decodeTableWord 32 0b0_01111111_10000000000000000000000 = some (.extract 0x3FC00000) ∧
    extract 0x3FC00000 = ⟨0, 127, 4194304⟩ := by decide

/-- Vectors T20 and T21, alternating bits: a reversed field or a wrong boundary shows. -/
theorem test_decode_alternating :
    decodeTableWord 32 0b0_10101010_10101010101010101010101 = some (.extract 0x55555555) ∧
    extract 0x55555555 = ⟨0, 0xAA, 0x555555⟩ ∧ extract 0xAAAAAAAA = ⟨1, 0x55, 0x2AAAAA⟩ := by decide

/-- Vectors T8 and T13: the exponent mask removes the sign, and keeps bit 30. -/
theorem test_boundaries : extract 0x807FFFFF = ⟨1, 0, 0x7FFFFF⟩ ∧ extract 0x40000000 = ⟨0, 128, 0⟩ ∧
    extract 0x00800000 = ⟨0, 1, 0⟩ ∧ extract 0x00400000 = ⟨0, 0, 0x400000⟩ := by decide

/-- Vectors T41 and T42 of `PACK`. -/
theorem test_pack : pack ⟨0, 170, 5592405⟩ = 0x55555555 ∧ pack ⟨1, 36, 3430008⟩ = 0x92345678 := by decide

/-- Vectors T44 and T47: XOR and complement field by field. -/
theorem test_fieldwise : fieldsXor (extract 0x12345678) (extract 0xDEADBEEF) = ⟨1, 0x99, 0x19E897⟩ ∧
    fieldsNot (extract 0x12345678) = ⟨1, 0xDB, 0x4BA987⟩ := by decide

/-! ### One step -/

/-- A small state: 0xFFFFFFFF on the port, two lines to apply, one observation made before. -/
def small : State :=
  { block := {}, bits := 0xFFFFFFFF, stimulus := [0x7FA00000, 0x3FC00000],
    observed := [{ word := 0xFFFFFFFF, fields := ⟨1, 255, 0x7FFFFF⟩ }] }

/-- Vector T18 after T2: the signalling NaN of the first line comes out as it stands, and nothing sticks. -/
theorem test_step_takes_the_first_line : step small = .next
    { block := {}, bits := 0x7FA00000, stimulus := [0x3FC00000],
      observed := [{ word := 0xFFFFFFFF, fields := ⟨1, 255, 0x7FFFFF⟩ },
        { word := 0x7FA00000, fields := ⟨0, 255, 0x200000⟩ }] } := by rfl

/-- Vector T23: a placed word is evaluated by the very next step after reset. -/
theorem test_placed_word_runs_first :
    step (State.reset.withFetchWord 32 0xDEADBEEF) = .next
      { block := {}, bits := 0xDEADBEEF, stimulus := [],
        observed := [{ word := 0xDEADBEEF, fields := ⟨1, 189, 0x2DBEEF⟩ }] } := by rfl

/-! ### Written forms -/

theorem test_line_written : disassemble (.extract 0x3F8000AF) =
    ['E', 'X', 'T', 'R', 'A', 'C', 'T', ' ', '0', 'x', '3', 'F', '8', '0', '0', '0', 'A', 'F'] := by decide

theorem test_line_read : assemble
    ['E', 'X', 'T', 'R', 'A', 'C', 'T', ' ', '0', 'x', '3', 'F', '8', '0', '0', '0', 'a', 'f']
      = some (.extract 0x3F8000AF) := by decide

/-- Seven digits, or a digit that is none, make no stimulus line. -/
theorem test_line_refused :
    assemble ['E', 'X', 'T', 'R', 'A', 'C', 'T', ' ', '0', 'x', '3', 'F', '8', '0', '0', '0', 'A'] = none ∧
    assemble ['E', 'X', 'T', 'R', 'A', 'C', 'T', ' ', '0', 'x', '3', 'F', '8', '0', '0', '0', 'A', 'G'] = none := by
  decide

/-- The source's spelling of S1's exponent, and the three spellings of W4 (10.0). -/
theorem test_result_written :
    binaryText (extract 0x3F800000).exponent = ['0', '1', '1', '1', '1', '1', '1', '1'] ∧
    resultText (extract 0x41200000) .decimal .hexadecimal =
      ['(', '0', ',', ' ', '1', '3', '0', ',', ' ', '0', 'x', '2', '0', '0', '0', '0', '0', ')'] ∧
    fieldText (extract 0x41200000).exponent 2 .hexadecimal = ['0', 'x', '8', '2'] := by decide

/-! ### Reference only: the source's reconstructed values -/

/-- Vector V4 (source S4): 1.5, factor by factor. -/
theorem test_mantissa_of_one_and_a_half : mantissaValueOf 0x400000 = 3 / 2 := by
  rw [mantissaValueOf, Finset.sum_eq_single 22]
  · norm_num [radix, show (0x400000 : BitVec 23).getLsbD 22 = true from rfl]
  · intro i hi hne
    have : (0x400000 : BitVec 23).getLsbD i = false := by
      have hlt := Finset.mem_range.mp hi
      interval_cases i <;> first | rfl | exact absurd rfl hne
    exact if_neg (by rw [this]; decide)
  · simp

/-- Vector V2 (source S2): the sign and the exponent value of −2.0. -/
theorem test_sign_and_exponent_of_minus_two :
    signValueOf (extract 0xC0000000).sign = -1 ∧ exponentValueOf (extract 0xC0000000).exponent = 2 := by
  have h : extract 0xC0000000 = ⟨1, 128, 0⟩ := by decide
  constructor
  · rw [h]; norm_num [signValueOf, show (1 : BitVec 1).toNat = 1 from rfl]
  · rw [h]; norm_num [exponentValueOf, radix, bias, show (128 : BitVec 8).toNat = 128 from rfl]

/-! ### Witnesses: the hypotheses of each statement are met, at the boundary of each clause's range -/

theorem witness_FieldsPartitionWord : (0 : Nat) < 32 ∧ 22 < 32 ∧ 23 < 32 ∧ 30 < 32 ∧ 31 < 32 := by decide
theorem witness_OnlyThirtyTwoBitWordsDecode :
    (31 : Nat) ≠ 32 ∧ (33 : Nat) ≠ 32 ∧ (2 : Nat) ^ 32 ≤ 2 ^ 32 ∧ (2 ^ 32 - 1 : Nat) < 2 ^ 32 := by decide
theorem witness_SignOutput :
    (0x80000000 : Word).getLsbD 31 = (0xFFFFFFFF : Word).getLsbD 31 ∧ 2147483648 ≤ (0x80000000 : Word).toNat ∧
    (0x7FFFFFFF : Word).toNat < 2147483648 := by decide
theorem witness_ExponentOutput :
    (∀ j < 8, (0x80000000 : Word).getLsbD (23 + j) = (0x007FFFFF : Word).getLsbD (23 + j)) ∧
    exponentOf 0x007FFFFF = 0 ∧ exponentOf 0x00800000 ≠ 0 ∧ exponentOf 0x80000000 = 0 ∧ exponentOf 0x807FFFFF = 0 ∧
    exponentOf 0x7F7FFFFF ≠ 255 ∧ exponentOf 0x7F800000 = 255 ∧ exponentOf 0x7FFFFFFF = 255 ∧
    exponentOf 0xFF800000 = 255 := by decide
theorem witness_FractionOutput :
    (∀ i < 23, (0xFF800001 : Word).getLsbD i = (0x00000001 : Word).getLsbD i) ∧
    fractionOf 0xFF800000 = 0 ∧ fractionOf 0x007FFFFF = 0x7FFFFF := by decide
theorem witness_FieldsZeroExtendWhenWidened : (22 : Nat) < 23 ∧ 23 < 32 ∧ 63 < 64 := by decide
theorem witness_ShiftMaskFormIsSliceForm :
    (32 : Nat) ≤ 32 ∧ 31 + 1 ≤ 32 ∧ 23 + 8 ≤ 32 ∧ 0 + 23 ≤ 32 ∧ 0 + 32 ≤ 32 := by decide
theorem witness_MasksUndoSignPropagation :
    (32 : Nat) ≤ 32 ∧ 32 ≤ 64 ∧ (0x80000000 : Word).getLsbD 31 = true := by decide
theorem witness_FieldRangesAreExact : (1 : Nat) ≤ 1 ∧ (255 : Nat) ≤ 255 ∧ (8388607 : Nat) ≤ 8388607 :=
  ⟨le_refl _, le_refl _, le_refl _⟩
theorem witness_ExtractIsBijection : (0x7FFFFFFF : Word) ≠ 0xFFFFFFFF := by decide
theorem witness_OutputBitsCopyInputBits :
    extract ((0x3FC00000 : Word) ^^^ BitVec.twoPow 32 22) = ⟨0, 127, 0⟩ ∧
    extract ((0x3FC00000 : Word) ^^^ BitVec.twoPow 32 23) = ⟨0, 126, 0x400000⟩ ∧
    extract ((0x3FC00000 : Word) ^^^ BitVec.twoPow 32 30) = ⟨0, 255, 0x400000⟩ ∧
    extract ((0x3FC00000 : Word) ^^^ BitVec.twoPow 32 31) = ⟨1, 127, 0x400000⟩ := by decide
theorem witness_StepRunsDecodedWord :
    small.stimulus = 0x7FA00000 :: [0x3FC00000] ∧ State.reset.stimulus = [] := by decide
theorem witness_PlacedWordIsRunNext :
    decodeTableWord 32 0xDEADBEEF = some (.extract 0xDEADBEEF) ∧ decodeTableWord 16 0 = none := by decide
theorem witness_NoHiddenState :
    small.stimulus.headD small.bits = (drive 0x7FA00000 State.reset).stimulus.headD (drive 0x7FA00000 State.reset).bits := by
  decide
theorem witness_EvaluationsAreIndependent :
    (∃ t, runProgram [0x3FC00000] small = .next t) ∧
    (∃ u, runProgram [0xFFFFFFFF, 0x3FC00000] State.reset = .next u) ∧
    ([0x3FC00000] : List Word)[0]? = some 0x3FC00000 ∧ ([0xFFFFFFFF, 0x3FC00000] : List Word)[1]? = some 0x3FC00000 :=
  ⟨⟨_, rfl⟩, ⟨_, rfl⟩, rfl, rfl⟩
theorem witness_ReorderedProgramReordersResults :
    (∃ u', runProgram [1, 2] small = .next u') ∧
    ([1, 0, 0, 5].filterMap (fun j => ([1, 2] : List Word)[j]?)) = [2, 1, 1] ∧
    ∃ s', runProgram ([1, 0, 0, 5].filterMap (fun j => ([1, 2] : List Word)[j]?)) State.reset = .next s' :=
  ⟨⟨_, rfl⟩, rfl, ⟨_, rfl⟩⟩
theorem witness_StepKeepsRecordFaithful : RecordFaithful small ∧ ∃ t, step small = .next t := by
  refine ⟨?_, _, rfl⟩
  intro o ho
  obtain rfl : o = { word := 0xFFFFFFFF, fields := ⟨1, 255, 0x7FFFFF⟩ } := by simpa [small] using ho
  decide
theorem witness_StepKeepsRecordLossless : RecordLossless small ∧ ∃ t, step small = .next t := by
  refine ⟨?_, _, rfl⟩
  intro o ho
  obtain rfl : o = { word := 0xFFFFFFFF, fields := ⟨1, 255, 0x7FFFFF⟩ } := by simpa [small] using ho
  decide
theorem witness_AssemblerAcceptsOnlyLines : assemble
    ['E', 'X', 'T', 'R', 'A', 'C', 'T', ' ', '0', 'x', 'd', 'e', 'a', 'd', 'B', 'E', 'E', 'F']
      = some (.extract 0xDEADBEEF) := by decide
theorem witness_WrittenProgramRoundTrip : assembleProgram
    [['E', 'X', 'T', 'R', 'A', 'C', 'T', ' ', '0', 'x', 'd', 'e', 'a', 'd', 'B', 'E', 'E', 'F'],
     ['E', 'X', 'T', 'R', 'A', 'C', 'T', ' ', '0', 'x', '3', 'F', '8', '0', '0', '0', '0', '0']]
      = some [0xDEADBEEF, 0x3F800000] := by decide
theorem witness_SignValueIsPlusOrMinusOne : (0 : BitVec 1) = 0 ∧ (1 : BitVec 1) = 1 := by decide
theorem witness_ExponentValueIsSignedPower : (126 : BitVec 8).toNat < 127 := by decide
theorem witness_MantissaValueClosedForm : (List.range 23).reverse.Perm (List.range 23) := List.reverse_perm _
theorem witness_EdgeExponentsAreNotSpecial :
    (extract 0x00000001).exponent = 0 ∧ (extract 0x7FC00000).exponent = 255 := by decide
theorem witness_ReconstructedValueDeterminesWord :
    reconstruct (extract 0x00000000) = reconstruct (extract 0x00000000) ∧ (0x00000000 : Word) = 0x00000000 := ⟨rfl, rfl⟩
theorem witness_EditedFieldsNegateAndDouble : (extract 0x3FC00000).exponent ≠ 255 ∧
    ({ extract 0x7F7FFFFF with exponent := 254 } : BitFields).exponent ≠ 255 := by decide

theorem witness_ResultTextSpellsTheTriple :
    resultText (extract 0xC0000000) .binary .decimal = resultText ⟨1, 128, 0⟩ .binary .decimal ∧
    resultText (extract 0xC0000000) .binary .decimal =
      ['(', '1', ',', ' ', '1', '0', '0', '0', '0', '0', '0', '0', ',', ' ', '0', ')'] := by decide
theorem witness_BlockHasOneState : evalBlock small.block 0xC0000000 = (small.block, ⟨1, 128, 0⟩) := by decide

end Sys2Proof.Tests
end

namespace Sys2Proof.Proofs

open Sys2Proof.Machine

/-- The three fields fill the word: "1 + 8 + 23 = 32" (R8). -/
theorem fieldWidths_add :
    Config.signWidth + Config.exponentWidth + Config.fractionWidth = Config.patternWidth := by decide

/-- The exponent mask is all ones over the field's width (R8). -/
theorem exponentMask_toNat : exponentMask.toNat = 2 ^ Config.exponentWidth - 1 := by decide

/-- The fraction mask is all ones over the field's width (R8). -/
theorem fractionMask_toNat : fractionMask.toNat = 2 ^ Config.fractionWidth - 1 := by decide

/-- The largest fraction is a field of ones, which is what its mask is (R8). -/
theorem fractionMask_toNat_eq_fractionMax : fractionMask.toNat = fractionMax :=
  fractionMask_toNat.trans (by decide)

/-- Settles O1: the values of the table are the model's literals, and the relations between them are the four lemmas
above. -/
theorem constantsAgree : Obligations.ConstantsAgree :=
  ⟨rfl, rfl, rfl, rfl, rfl, rfl, rfl, rfl, rfl, rfl, rfl, rfl, rfl,
    fieldWidths_add, exponentMask_toNat, fractionMask_toNat, fractionMask_toNat_eq_fractionMax⟩

end Sys2Proof.Proofs

namespace Sys2Proof.Proofs

open Sys2Proof.Machine

/-! ### The two forms of `EXTRACT`, field by field -/

theorem signOf_eq_slice (w : Word) : signOf w = w.extractLsb' 31 1 := by
  apply BitVec.eq_of_getLsbD_eq
  intro i _
  rw [signOf_getLsbD, BitVec.getLsbD_extractLsb']

theorem exponentOf_eq_slice (w : Word) : exponentOf w = w.extractLsb' 23 8 := by
  apply BitVec.eq_of_getLsbD_eq
  intro i _
  rw [exponentOf_getLsbD, BitVec.getLsbD_extractLsb']

theorem fractionOf_eq_slice (w : Word) : fractionOf w = w.extractLsb' 0 23 := by
  apply BitVec.eq_of_getLsbD_eq
  intro i _
  rw [fractionOf_getLsbD, BitVec.getLsbD_extractLsb', Nat.zero_add]

/-- The shift-and-mask form and the slice form of `EXTRACT` are one function (R48). -/
theorem extract_eq_extractSlices (w : Word) : extract w = extractSlices w :=
  BitFields.ext (signOf_eq_slice w) (exponentOf_eq_slice w) (fractionOf_eq_slice w)

/-! ### What a step presents, and its only answer -/

/-- The word a step takes: the first stimulus line, or the word held on the port (log entry 3). -/
theorem takeLine_word (s : State) : (takeLine s).1 = s.stimulus.headD s.bits := by
  cases h : s.stimulus with
  | nil => simp [takeLine_nil h]
  | cons w rest => simp [takeLine_cons h]

@[simp] theorem takeLine_block (s : State) : (takeLine s).2.block = s.block := (takeLine_frame s).1

@[simp] theorem takeLine_observed (s : State) : (takeLine s).2.observed = s.observed := (takeLine_frame s).2.2

/-- A step has one answer: the evaluation of the word taken. -/
theorem step_eq_next_iff {s t : State} :
    step s = .next t ↔ t = evaluate (takeLine s).1 (takeLine s).2 := by
  rw [step_eq, Host.Outcome.next.injEq, eq_comm]

/-- What a step adds to the record depends on the presented word alone. -/
theorem observed_drop_of_step {s t : State} (h : step s = .next t) :
    t.observed.drop s.observed.length
      = [{ word := s.stimulus.headD s.bits, fields := extract (s.stimulus.headD s.bits) }] := by
  rw [step_eq_next_iff.mp h, evaluate_observed, takeLine_observed, List.drop_left, takeLine_word]

/-- What the ports carry after a step is `EXTRACT` of the presented word. -/
theorem outputs_of_step {s t : State} (h : step s = .next t) :
    outputs t = extract (s.stimulus.headD s.bits) := by
  rw [step_eq_next_iff.mp h, outputs_evaluate, takeLine_word]

/-! ### The record -/

/-- Faithfulness speaks of the record only. -/
theorem recordFaithful_congr {s t : State} (h : t.observed = s.observed) :
    RecordFaithful t ↔ RecordFaithful s := by
  rw [RecordFaithful, RecordFaithful, h]

/-- One more evaluation adds one faithful observation. -/
theorem recordFaithful_evaluate {w : Word} {s : State} (h : RecordFaithful s) :
    RecordFaithful (evaluate w s) := by
  intro o ho
  rw [evaluate_observed, List.mem_append, List.mem_singleton] at ho
  rcases ho with old | rfl
  · exact h o old
  · exact extract_eq_extractSlices w

theorem recordFaithful_drive {w : Word} {s : State} (h : RecordFaithful s) : RecordFaithful (drive w s) :=
  (recordFaithful_congr (drive_observed w s)).mpr h

theorem recordFaithful_step {s t : State} (h : RecordFaithful s) (hstep : step s = .next t) :
    RecordFaithful t := by
  rw [step_eq_next_iff.mp hstep]
  exact recordFaithful_evaluate ((recordFaithful_congr (takeLine_observed s)).mpr h)

/-- An empty record is faithful. -/
theorem recordFaithful_of_observed_nil {s : State} (h : s.observed = []) : RecordFaithful s := by
  simp [RecordFaithful, h]

/-- An empty record is lossless. -/
theorem recordLossless_of_observed_nil {s : State} (h : s.observed = []) : RecordLossless s := by
  simp [RecordLossless, h]

/-! ### The block's own run beside the machine's -/

/-- The block's run ends in the state it began in (R19). -/
theorem runBlock_state (b : Block) (p : List Word) : (runBlock b p).1 = b := by
  induction p with
  | nil => rfl
  | cons w p ih => rw [runBlock_cons, ih]

/-- The block's run gives one triple per word (R42). -/
theorem runBlock_fields_length (b : Block) (p : List Word) : (runBlock b p).2.length = p.length := by
  induction p with
  | nil => rfl
  | cons w p ih => rw [runBlock_cons, List.length_cons, List.length_cons, ih]

@[simp] theorem results_load (p : List Word) (s : State) : results (load p s) = results s := rfl

/-- The simulation: running a program on the machine moves the block, and adds to the results, exactly as the
block's own run on the same words does. -/
theorem runProgram_simulates_runBlock (p : List Word) (s : State) :
    ∃ t, runProgram p s = .next t ∧ t.block = (runBlock s.block p).1 ∧
      results t = results s ++ (runBlock s.block p).2 := by
  induction p generalizing s with
  | nil => exact ⟨load [] s, runProgram_nil s, rfl, by simp⟩
  | cons w p ih =>
    obtain ⟨t, hrun, hblock, hresults⟩ := ih (evaluate w s)
    refine ⟨t, (runProgram_cons w p s).trans hrun, ?_, ?_⟩
    · rw [hblock, evaluate_block, runBlock_cons]
    · rw [hresults, results_evaluate, evaluate_block, runBlock_cons, List.append_assoc, List.singleton_append]

/-- The step relation of the block: the same state, and the three selections of the word (R19, R20). -/
theorem evalBlock_eq_iff (b c : Block) (w : Word) (f : BitFields) :
    evalBlock b w = (c, f) ↔ c = b ∧ f = extractSlices w := by
  rw [Prod.ext_iff, evalBlock_state, evalBlock_fields, extract_eq_extractSlices, eq_comm, eq_comm (a := f)]

/-- The state type of the block has one element (R19). -/
theorem card_block : Nat.card Block = 1 :=
  Nat.card_eq_one_iff_unique.mpr ⟨⟨fun _ _ => rfl⟩, ⟨{}⟩⟩

/-! ### The statements -/

/-- Settles O37: a step adds one observation, which is faithful, and driving adds none. -/
theorem stepKeepsRecordFaithful : Obligations.StepKeepsRecordFaithful :=
  ⟨fun _ _ => recordFaithful_step, fun _ _ => recordFaithful_drive⟩

/-- Settles O53: the simulation, with what the block's own run does. -/
theorem machineRefinesBlock : Obligations.MachineRefinesBlock := by
  intro p s
  obtain ⟨t, hrun, hblock, hresults⟩ := runProgram_simulates_runBlock p s
  exact ⟨t, hrun, hblock, hresults, runBlock_state s.block p, runBlock_fields_length s.block p⟩

/-- Settles O25: the ports are wires that carry `EXTRACT` of the input port, whose fields are the slices. -/
theorem outputsFollowInput : Obligations.OutputsFollowInput := by
  intro s
  refine ⟨signOf_eq_slice s.bits, exponentOf_eq_slice s.bits, fractionOf_eq_slice s.bits, fun w => ⟨?_, rfl⟩⟩
  rw [outputs_drive, extract_eq_extractSlices]

/-- Settles O27: the three logged reset values; a record that is empty is faithful and lossless. -/
theorem resetStateAsLogged : Obligations.ResetStateAsLogged :=
  ⟨rfl, rfl, rfl, recordFaithful_of_observed_nil rfl, recordLossless_of_observed_nil rfl⟩

/-- Settles O33: outputs and the added observation are functions of the presented word. -/
theorem noHiddenState : Obligations.NoHiddenState := by
  intro s u hword
  refine ⟨_, _, step_eq s, step_eq u, ?_, ?_⟩
  · rw [outputs_of_step (step_eq s), outputs_of_step (step_eq u), hword]
  · rw [observed_drop_of_step (step_eq s), observed_drop_of_step (step_eq u), hword]

/-- Settles O52: one element, related to itself alone, and left as it is by every machine step. -/
theorem blockHasOneState : Obligations.BlockHasOneState :=
  ⟨card_block, evalBlock_eq_iff, fun _ => rfl, fun s => ⟨_, step_eq s, takeLine_block s⟩⟩

end Sys2Proof.Proofs

namespace Sys2Proof.Proofs

open Sys2Proof.Machine

/-! ### The results of a program: one triple per line, each from its own word -/

/-- The block's run gives the slices of each word, in order (R42, R48). -/
theorem runBlock_fields (b : Block) (p : List Word) : (runBlock b p).2 = p.map extractSlices := by
  induction p with
  | nil => rfl
  | cons w p ih => rw [runBlock_cons, List.map_cons, ih, extract_eq_extractSlices]

/-- Every program completes, and adds the slices of its words to the results. -/
theorem exists_runProgram_results (p : List Word) (s : State) :
    ∃ t, runProgram p s = .next t ∧ results t = results s ++ p.map extractSlices := by
  obtain ⟨t, hrun, -, hresults⟩ := runProgram_simulates_runBlock p s
  exact ⟨t, hrun, hresults.trans (by rw [runBlock_fields])⟩

/-- The same of any answer of the run, since a run has only one. -/
theorem results_of_runProgram {p : List Word} {s t : State} (h : runProgram p s = .next t) :
    results t = results s ++ p.map extractSlices := by
  obtain ⟨t', hrun, hresults⟩ := exists_runProgram_results p s
  obtain rfl : t' = t := Host.Outcome.next.inj (hrun.symm.trans h)
  exact hresults

@[simp] theorem results_length (s : State) : (results s).length = s.observed.length := List.length_map ..

/-- The results that a run adds, without those its start state had. -/
theorem results_drop_of_runProgram {p : List Word} {s t : State} (h : runProgram p s = .next t) :
    (results t).drop s.observed.length = p.map extractSlices := by
  rw [results_of_runProgram h, ← results_length, List.drop_left]

/-- The result at the place of a line is that of the line's word. -/
theorem results_getElem?_of_runProgram {p : List Word} {s t : State} {j : Nat} {w : Word}
    (h : runProgram p s = .next t) (hj : p[j]? = some w) :
    (results t)[s.observed.length + j]? = some (extractSlices w) := by
  rw [← List.getElem?_drop, results_drop_of_runProgram h, List.getElem?_map, hj, Option.map_some]

/-! ### `PACK` undoes `EXTRACT` -/

/-- The weighted sum of the three fields is the word (R53). -/
theorem packNumber_extract (w : Word) : packNumber (extract w) = w.toNat := by
  have fields : packNumber (extract w)
      = w.toNat / 2 ^ 31 * 2 ^ 31 + w.toNat / 2 ^ 23 % 256 * 2 ^ 23 + w.toNat % 2 ^ 23 := by
    rw [packNumber, extract, signOf_toNat, exponentOf_toNat, fractionOf_toNat]
  omega

/-- No bit of the word is lost in its three fields (R53). -/
theorem pack_extract (w : Word) : pack (extract w) = w :=
  BitVec.eq_of_toNat_eq ((pack_toNat _).trans (packNumber_extract w))

/-- Losslessness speaks of the record only. -/
theorem recordLossless_congr {s t : State} (h : t.observed = s.observed) :
    RecordLossless t ↔ RecordLossless s := by
  rw [RecordLossless, RecordLossless, h]

/-- One more evaluation adds one lossless observation. -/
theorem recordLossless_evaluate {w : Word} {s : State} (h : RecordLossless s) :
    RecordLossless (evaluate w s) := by
  intro o ho
  rw [evaluate_observed, List.mem_append, List.mem_singleton] at ho
  rcases ho with old | rfl
  · exact h o old
  · exact pack_extract w

/-! ### The decoder of raw numbers -/

/-- A number of another width is rejected as such, whatever its value (R40; log entry 7). -/
theorem decodeRaw_of_nbits_ne {nbits : Nat} (v : Nat) (h : nbits ≠ 32) :
    decodeRaw { nbits := nbits, value := v } = .error .notThirtyTwoBits :=
  if_neg (mt (RawWord.hasPatternWidth_iff _).mp h)

/-- A number that does not fit in 32 bits is rejected as such (R27). -/
theorem decodeRaw_of_two_pow_le {v : Nat} (h : 2 ^ 32 ≤ v) :
    decodeRaw { nbits := 32, value := v } = .error .valueTooWide :=
  (if_pos ((RawWord.hasPatternWidth_iff _).mpr rfl)).trans
    (if_neg (mt (RawWord.fitsPattern_iff _).mp h.not_gt))

theorem decodeTableWord_eq_none_iff (nbits v : Nat) :
    decodeTableWord nbits v = none ↔ nbits ≠ 32 ∨ 2 ^ 32 ≤ v := by
  rw [decodeTableWord_eq, ite_eq_right_iff, ← not_lt, ← not_and_or]
  simp only [reduceCtorEq, imp_false]

theorem decodeTableWord_of_lt {v : Nat} (h : v < 2 ^ 32) :
    decodeTableWord 32 v = some (.extract (BitVec.ofNat 32 v)) := by
  rw [decodeTableWord_eq, if_pos ⟨rfl, h⟩]

/-- The decoder reads an instruction's encoding as that instruction (R41). -/
theorem decodeTableWord_encode (i : Instr) : decodeTableWord 32 (encode i).toNat = some i := by
  cases i with
  | extract w => rw [encode, decodeTableWord_of_lt w.isLt, BitVec.ofNat_toNat, BitVec.setWidth_eq]

/-! ### The statements -/

/-- Settles O34: the results a run adds are a function of each line's word alone. -/
theorem evaluationsAreIndependent : Obligations.EvaluationsAreIndependent :=
  ⟨exists_runProgram_results, fun _ _ _ _ _ _ _ _ _ hs hu hj hk =>
    ⟨results_getElem?_of_runProgram hs hj, results_getElem?_of_runProgram hu hk⟩⟩

/-- Settles O38: the one observation a step adds is lossless, as `PACK` undoes `EXTRACT`. -/
theorem stepKeepsRecordLossless : Obligations.StepKeepsRecordLossless := by
  intro s t h hstep
  rw [step_eq_next_iff.mp hstep]
  exact recordLossless_evaluate ((recordLossless_congr (takeLine_observed s)).mpr h)

/-- Settles O6: the rejections by name, and both round trips between numbers and instructions. -/
theorem onlyThirtyTwoBitWordsDecode : Obligations.OnlyThirtyTwoBitWordsDecode :=
  ⟨decodeTableWord_eq_none_iff, fun _ v => decodeRaw_of_nbits_ne v, fun _ => decodeRaw_of_two_pow_le,
    decodeTableWord_encode,
    fun _ h => ⟨_, decodeTableWord_of_lt h, (BitVec.toNat_ofNat _ _).trans (Nat.mod_eq_of_lt h)⟩⟩

/-- Settles O32: the observation a step adds is that of the word it takes. -/
theorem fieldsOfOneResultShareAWord : Obligations.FieldsOfOneResultShareAWord := by
  intro s
  have added := evaluate_observed (takeLine s).1 (takeLine s).2
  rw [takeLine_observed] at added
  exact ⟨_, _, step_eq s, added, rfl, takeLine_word s, extract_eq_extractSlices _, pack_extract _⟩

/-- Settles O36: choosing lines by position and taking the slices of each word commute. -/
theorem reorderedProgramReordersResults : Obligations.ReorderedProgramReordersResults := by
  intro q js s u s' u' hu hs
  rw [results_of_runProgram hs, results_drop_of_runProgram hu, List.map_filterMap]
  simp only [List.getElem?_map]

end Sys2Proof.Proofs

namespace Sys2Proof.Proofs

open Sys2Proof.Machine

/-! ### The run of a program, to its exact end -/

/-- The host's record of one evaluation is the observation its line is to give. -/
theorem evaluate_observed_expected (w : Word) (s : State) :
    (evaluate w s).observed = s.observed ++ [expectedObservation w] := by
  rw [evaluate_observed, extract_eq_extractSlices, expectedObservation]

/-- The exact state a program ends in, by induction on its lines: each evaluation hands its word, as the one held on
the port, and its observation on to the rest of the run. -/
theorem runProgram_eq (p : List Word) (s : State) : runProgram p s = .next
    { block := s.block, bits := p.getLastD s.bits, stimulus := [],
      observed := s.observed ++ p.map expectedObservation } := by
  induction p generalizing s with
  | nil => rw [runProgram_nil, List.map_nil, List.append_nil, List.getLastD_nil, load]
  | cons w p ih =>
    rw [runProgram_cons, ih, evaluate_block, evaluate_bits, evaluate_observed_expected, List.append_assoc,
      List.singleton_append, List.map_cons, List.getLastD_cons]

/-- Settles O35: the run of a program evaluates its lines one by one. -/
theorem programRunExact : Obligations.ProgramRunExact := runProgram_eq

/-! ### Stimulus lines: what is written is read -/

/-- All that reading a stimulus line can do. -/
theorem assemble_eq_some_iff {line : List Char} {i : Instr} :
    assemble line = some i ↔ line.take 10 = linePrefix ∧ line.length = 18 ∧
      ∃ n, readHex (line.drop 10) 0 = some n ∧ i = .extract (BitVec.ofNat 32 n) := by
  rw [assemble]
  split
  next shape =>
    obtain ⟨hstart, hlength⟩ := shape
    cases readHex (line.drop 10) 0 <;> simp [hstart, hlength, decode, eq_comm]
  next shape => exact iff_of_false nofun fun ⟨hstart, hlength, _⟩ => shape ⟨hstart, hlength⟩

theorem disassemble_take (w : Word) : (disassemble (.extract w)).take 10 = linePrefix :=
  List.take_left (l₁ := linePrefix)

theorem disassemble_drop (w : Word) : (disassemble (.extract w)).drop 10 = hexDigits w 8 :=
  List.drop_left (l₁ := linePrefix)

theorem disassemble_length (w : Word) : (disassemble (.extract w)).length = 18 := by
  rw [disassemble, List.length_append, hexDigits_length, linePrefix]
  rfl

/-- As many hexadecimal digits as a vector fills read back as its number. -/
theorem readHex_hexDigits_of_le {n k : Nat} (v : BitVec n) (h : n ≤ 4 * k) :
    readHex (hexDigits v k) 0 = some v.toNat := by
  have fits : v.toNat < 16 ^ k := calc
    v.toNat < 2 ^ n := v.isLt
    _ ≤ 2 ^ (4 * k) := Nat.pow_le_pow_right (by decide) h
    _ = 16 ^ k := Nat.pow_mul 2 4 k
  rw [readHex_hexDigits, Nat.zero_mul, Nat.zero_add, Nat.mod_eq_of_lt fits]

/-- The line written for a word reads as `EXTRACT` of that word (R41). -/
theorem assemble_disassemble (w : Word) : assemble (disassemble (.extract w)) = some (.extract w) := by
  refine assemble_eq_some_iff.mpr ⟨disassemble_take w, disassemble_length w, w.toNat, ?_, ?_⟩
  · rw [disassemble_drop, readHex_hexDigits_of_le w (by decide)]
  · rw [BitVec.ofNat_toNat, BitVec.setWidth_eq]

/-- Settles O39: eight digits hold the whole word, so reading them gives it back. -/
theorem assemblerRoundTrip : Obligations.AssemblerRoundTrip := fun w =>
  ⟨assemble_disassemble w, rfl, disassemble_take w, disassemble_length w⟩

end Sys2Proof.Proofs

namespace Sys2Proof.Proofs

open Sys2Proof.Machine

/-! ### Stimulus lines: only what is written is read -/

/-- Of any sixteen digits that are the capitals once raised to capitals, each stands for the four bits that are
written with it. -/
theorem toUpper_of_idxOf?_eq_some {digits : List Char} {c : Char} {d : Nat}
    (spelling : digits.map Char.toUpper = hexCapitals) (h : digits.idxOf? c = some d) :
    d < 16 ∧ c.toUpper = hexDigit (BitVec.ofNat 4 d) := by
  obtain ⟨hd, rfl, -⟩ := List.idxOf?_eq_some_iff.mp h
  have sixteen : d < 16 := by
    have hlength := congrArg List.length spelling
    rw [List.length_map] at hlength
    exact hd.trans_eq hlength
  refine ⟨sixteen, ?_⟩
  rw [hexDigit, BitVec.toNat_ofNat, Nat.mod_eq_of_lt sixteen, ← spelling, List.getD_eq_getElem?_getD,
    List.getElem?_map, List.getElem?_eq_getElem hd, Option.map_some, Option.getD_some]

/-- A character that reads as a digit is, as a capital, the digit written for the number it reads as. -/
theorem toUpper_of_hexValue_eq_some {c : Char} {d : Nat} (h : hexValue c = some d) :
    d < 16 ∧ c.toUpper = hexDigit (BitVec.ofNat 4 d) := by
  rw [hexValue] at h
  split at h
  next n hcapital => exact toUpper_of_idxOf?_eq_some (by decide) (hcapital.trans h)
  next => exact toUpper_of_idxOf?_eq_some (by decide) h

/-- All that reading one more digit can do. -/
theorem readHex_cons_eq_some_iff {c : Char} {ds : List Char} {acc n : Nat} :
    readHex (c :: ds) acc = some n ↔ ∃ d, hexValue c = some d ∧ readHex ds (16 * acc + d) = some n := by
  rw [readHex]
  cases hexValue c <;> simp

/-- The digits read are the lowest of the number: without them it is the number that reading went on from. -/
theorem div_of_readHex_eq_some {ds : List Char} {acc n : Nat} (h : readHex ds acc = some n) :
    n / 16 ^ ds.length = acc := by
  induction ds generalizing acc with
  | nil =>
    obtain rfl : acc = n := Option.some.inj h
    exact Nat.div_one acc
  | cons c ds ih =>
    obtain ⟨d, hd, hds⟩ := readHex_cons_eq_some_iff.mp h
    have digit := (toUpper_of_hexValue_eq_some hd).1
    rw [List.length_cons, Nat.pow_succ, ← Nat.div_div_eq_div_mul, ih hds]
    omega

/-- Four bits of a number's vector, as the digit of the number at their place. -/
theorem extractLsb'_ofNat_four {n k : Nat} (v : Nat) (h : 4 * (k + 1) ≤ n) :
    (BitVec.ofNat n v).extractLsb' (4 * k) 4 = BitVec.ofNat 4 (v / 16 ^ k) := by
  have weight : (16 : Nat) ^ k = 2 ^ (4 * k) := (Nat.pow_mul 2 4 k).symm
  apply BitVec.eq_of_getLsbD_eq
  intro i hi
  have inside : 4 * k + i < n := by omega
  rw [BitVec.getLsbD_extractLsb', BitVec.getLsbD_ofNat, BitVec.getLsbD_ofNat, decide_eq_true inside, Bool.true_and,
    weight, Nat.testBit_div_two_pow, Nat.add_comm]

/-- Digits that read as a number are, as capitals, the digits written for its vector. -/
theorem map_toUpper_of_readHex_eq_some {m n acc : Nat} {ds : List Char} (h : readHex ds acc = some n)
    (fits : 4 * ds.length ≤ m) : ds.map Char.toUpper = hexDigits (BitVec.ofNat m n) ds.length := by
  induction ds generalizing acc with
  | nil => rfl
  | cons c ds ih =>
    obtain ⟨d, hd, hds⟩ := readHex_cons_eq_some_iff.mp h
    obtain ⟨-, hc⟩ := toUpper_of_hexValue_eq_some hd
    have digit : BitVec.ofNat 4 (16 * acc + d) = BitVec.ofNat 4 d := by
      apply BitVec.eq_of_toNat_eq
      rw [BitVec.toNat_ofNat, BitVec.toNat_ofNat]
      omega
    rw [List.map_cons, List.length_cons, hexDigits, extractLsb'_ofNat_four n fits, div_of_readHex_eq_some hds, digit,
      ← hc, ih hds (by rw [List.length_cons] at fits; omega)]

/-- Settles O40: a line that reads begins as every line does, and its digits as capitals are those of the word read. -/
theorem assemblerAcceptsOnlyLines : Obligations.AssemblerAcceptsOnlyLines := by
  intro line i h
  obtain ⟨hstart, hlength, n, hread, rfl⟩ := assemble_eq_some_iff.mp h
  have eight : (line.drop 10).length = 8 := by rw [List.length_drop, hlength]
  rw [hstart, map_toUpper_of_readHex_eq_some (m := 32) hread (by rw [eight]), eight, disassemble]

/-! ### Programs, line by line -/

/-- All that reading a program can do with its first line. -/
theorem assembleProgram_cons_eq_some_iff {line : List Char} {lines : List (List Char)} {p : List Word} :
    assembleProgram (line :: lines) = some p ↔
      ∃ i ws, assemble line = some i ∧ assembleProgram lines = some ws ∧ p = encode i :: ws := by
  rw [assembleProgram]
  cases assemble line <;> cases assembleProgram lines <;> simp [eq_comm]

theorem disassemble_encode (i : Instr) : disassemble (.extract (encode i)) = disassemble i := by
  cases i with
  | extract w => rfl

/-- A program written line by line reads back as its words. -/
theorem assembleProgram_map_disassemble (p : List Word) :
    assembleProgram (p.map (fun w => disassemble (.extract w))) = some p := by
  induction p with
  | nil => rfl
  | cons w p ih => exact assembleProgram_cons_eq_some_iff.mpr ⟨.extract w, p, assemble_disassemble w, ih, rfl⟩

/-- A list of lines that reads as a program is, with its digits as capitals, the program written out. -/
theorem map_toUpper_of_assembleProgram_eq_some {lines : List (List Char)} {p : List Word}
    (h : assembleProgram lines = some p) :
    lines.map (fun line => line.take 10 ++ (line.drop 10).map Char.toUpper)
      = p.map (fun w => disassemble (.extract w)) := by
  induction lines generalizing p with
  | nil =>
    obtain rfl : [] = p := Option.some.inj h
    rfl
  | cons line lines ih =>
    obtain ⟨i, ws, hline, hlines, rfl⟩ := assembleProgram_cons_eq_some_iff.mp h
    rw [List.map_cons, List.map_cons, ih hlines, assemblerAcceptsOnlyLines line i hline, disassemble_encode]

/-- Settles O41: both directions line by line, from those of one line. -/
theorem writtenProgramRoundTrip : Obligations.WrittenProgramRoundTrip :=
  ⟨assembleProgram_map_disassemble, fun _ _ => map_toUpper_of_assembleProgram_eq_some⟩

end Sys2Proof.Proofs

namespace Sys2Proof.Proofs

open Sys2Proof.Machine

/-! ### The fields in place, and widened -/

theorem signMask_getLsbD (i : Nat) : signMask.getLsbD i = decide (i < 1) := by
  have h : signMask.toNat = 2 ^ 1 - 1 := rfl
  rw [← BitVec.testBit_toNat, h, Nat.testBit_two_pow_sub_one]

/-- Masking in place and then moving down is moving down and then masking. -/
theorem and_shiftLeft_ushiftRight (w mask : Word) (k : Nat) :
    (w &&& mask <<< k) >>> k = shiftMask w k mask := by
  apply BitVec.eq_of_getLsbD_eq
  intro i _
  rw [shiftMask_getLsbD, BitVec.getLsbD_ushiftRight, BitVec.getLsbD_and, BitVec.getLsbD_shiftLeft]
  by_cases inside : k + i < 32
  · simp [inside]
  · simp [BitVec.getLsbD_of_ge w (k + i) (by omega)]

/-- A mask of `n` ones clears every bit that a field of `n` bits cannot carry (R37). -/
theorem setWidth_setWidth_and {n : Nat} (w : Word) {mask : Word} (ones : ∀ i, mask.getLsbD i = decide (i < n)) :
    ((w &&& mask).setWidth n).setWidth 32 = w &&& mask := by
  apply BitVec.eq_of_getLsbD_eq
  intro i hi
  rw [BitVec.getLsbD_setWidth, BitVec.getLsbD_setWidth, BitVec.getLsbD_and, ones, decide_eq_true hi]
  cases decide (i < n) <;> simp

/-- What the sign's mask in place keeps, moved down (R35). -/
theorem and_signInPlace (w : Word) : (w &&& signInPlace) >>> 31 = (signOf w).setWidth 32 :=
  (and_shiftLeft_ushiftRight w signMask 31).trans (setWidth_setWidth_and _ signMask_getLsbD).symm

/-- What the exponent's mask in place keeps, moved down (R35). -/
theorem and_exponentInPlace (w : Word) : (w &&& exponentInPlace) >>> 23 = (exponentOf w).setWidth 32 :=
  (and_shiftLeft_ushiftRight w exponentMask 23).trans (setWidth_setWidth_and _ exponentMask_getLsbD).symm

/-- What the fraction's mask keeps, which stands in place already (R35). -/
theorem and_fractionInPlace (w : Word) : w &&& fractionInPlace = (fractionOf w).setWidth 32 :=
  (setWidth_setWidth_and w fractionMask_getLsbD).symm

theorem signInPlace_eq : signInPlace = 0x80000000 := by decide
theorem exponentInPlace_eq : exponentInPlace = 0x7F800000 := by decide
theorem fractionInPlace_eq : fractionInPlace = 0x007FFFFF := rfl

/-- Settles O2: the masks' literals, what each keeps, and the ranges of 1, 8 and 23 bits. -/
theorem fieldsOfFormatW32 : Obligations.FieldsOfFormatW32 :=
  ⟨signInPlace_eq, exponentInPlace_eq, fractionInPlace_eq, fun w =>
    ⟨and_signInPlace w, and_exponentInPlace w, and_fractionInPlace w,
      Nat.le_of_lt_succ (signOf w).isLt, Nat.le_of_lt_succ (exponentOf w).isLt,
      Nat.le_of_lt_succ (fractionOf w).isLt⟩⟩

/-- Widening keeps every bit; above the field's width the field has none. -/
theorem widen_getLsbD {n m i : Nat} (field : BitVec n) (h : i < m) :
    (widen m field).getLsbD i = field.getLsbD i := by
  rw [widen, BitVec.getLsbD_setWidth, decide_eq_true h, Bool.true_and]

/-- The sign has one bit, a copy of bit 31. -/
theorem signOf_getLsbD_eq (w : Word) (i : Nat) : (signOf w).getLsbD i = (decide (i < 1) && w.getLsbD 31) := by
  rw [signOf_getLsbD]
  cases i <;> simp

/-- Settles O13: the slices, and bit by bit what widening them keeps. -/
theorem fieldsZeroExtendWhenWidened : Obligations.FieldsZeroExtendWhenWidened := fun w =>
  ⟨extract_eq_extractSlices w, fun _ i h =>
    ⟨(widen_getLsbD _ h).trans (signOf_getLsbD_eq w i), (widen_getLsbD _ h).trans (exponentOf_getLsbD w i),
      (widen_getLsbD _ h).trans (fractionOf_getLsbD w i)⟩⟩

/-! ### Results: fields in binary and in hexadecimal -/

/-- The binary text of two vectors written one after the other is that of the two together (R43). -/
theorem binaryText_append {n m : Nat} (u : BitVec n) (v : BitVec m) :
    binaryText (u ++ v) = binaryText u ++ binaryText v := by
  rw [binaryText, List.range_add, List.map_append, List.map_map]
  congr 1
  · refine List.map_congr_left fun k hk => ?_
    rw [BitVec.getMsbD_append, if_neg (List.mem_range.mp hk).not_ge]
  · refine List.map_congr_left fun k _ => ?_
    rw [Function.comp_apply, BitVec.getMsbD_append, if_pos (Nat.le_add_right n k), Nat.add_sub_cancel_left]

/-- The top digit of the six of a fraction carries its three highest bits. -/
theorem exists_hexValue_headD_fraction (v : BitVec 23) :
    ∃ d ≤ 7, hexValue ((hexDigits v 6).headD '0') = some d := by
  refine ⟨_, ?_, hexValue_hexDigit (v.extractLsb' 20 4)⟩
  have h := v.isLt
  rw [BitVec.extractLsb'_toNat, Nat.shiftRight_eq_div_pow]
  omega

/-- Settles O42: the word is its fields one after the other, and so is its binary text. -/
theorem resultDigitsAreTheFields : Obligations.ResultDigitsAreTheFields := by
  intro w
  have whole : binaryText (extract w).sign ++ binaryText (extract w).exponent ++ binaryText (extract w).fraction
      = binaryText w := by
    rw [← binaryText_append, ← binaryText_append, ← pack, pack_extract]
  exact ⟨binaryText_length _, binaryText_length _, binaryText_length _, whole,
    hexDigits_length _ _, readHex_hexDigits_of_le _ (by decide),
    hexDigits_length _ _, readHex_hexDigits_of_le _ (by decide), exists_hexValue_headD_fraction _⟩

/-! ### Results: the whole form -/

theorem binaryText_sign (sign : BitVec 1) : binaryText sign = [if sign = 1 then '1' else '0'] := by
  revert sign
  decide

theorem binaryText_cons {n : Nat} (b : Bool) (v : BitVec n) :
    binaryText (BitVec.cons b v) = (if b then '1' else '0') :: binaryText v := by
  rw [binaryText, List.range_succ_eq_map, List.map_cons, List.map_map, BitVec.getMsbD_cons_zero, binaryText]
  congr 1
  refine List.map_congr_left fun k _ => ?_
  rw [Function.comp_apply, Nat.succ_eq_add_one, BitVec.getMsbD_cons_succ]

/-- Reading the binary text of a vector, going on from a number, puts the vector's bits behind the number's. -/
theorem ofDigitChars_binaryText {n : Nat} (v : BitVec n) (acc : Nat) :
    Nat.ofDigitChars 2 (binaryText v) acc = acc * 2 ^ n + v.toNat := by
  induction v using BitVec.cons_induction generalizing acc with
  | nil => simp [binaryText]
  | @cons n b v ih =>
    have digit : (if b then '1' else '0').toNat - '0'.toNat = b.toNat := by cases b <;> rfl
    rw [binaryText_cons, Nat.ofDigitChars_cons, digit, ih, BitVec.toNat_cons', Nat.shiftLeft_eq, Nat.pow_succ]
    ring

/-- A binary text reads back as its vector (R43). -/
theorem ofDigitChars_binaryText_zero {n : Nat} (v : BitVec n) : Nat.ofDigitChars 2 (binaryText v) 0 = v.toNat := by
  rw [ofDigitChars_binaryText, Nat.zero_mul, Nat.zero_add]

/-- A decimal text is of decimal digits (R43). -/
theorem all_isDigit_decimalText {n : Nat} (v : BitVec n) (digits : Nat) :
    (fieldText v digits .decimal).all Char.isDigit = true :=
  List.all_eq_true.mpr fun _ hc => Nat.isDigit_of_mem_toDigits (by decide) (by decide) hc

/-- In every spelling a field's text determines the field. -/
theorem fieldText_injective {n digits : Nat} (fits : n ≤ 4 * digits) (m : Spelling) {u v : BitVec n}
    (h : fieldText u digits m = fieldText v digits m) : u = v := by
  apply BitVec.eq_of_toNat_eq
  cases m with
  | decimal =>
    have read := congrArg (Nat.ofDigitChars 10 · 0) h
    rwa [fieldText, fieldText, Nat.ofDigitChars_ten_toDigits, Nat.ofDigitChars_ten_toDigits] at read
  | hexadecimal =>
    obtain ⟨-, hdigits⟩ := List.cons.inj (List.cons.inj h).2
    have read := congrArg (readHex · 0) hdigits
    rwa [readHex_hexDigits_of_le u fits, readHex_hexDigits_of_le v fits, Option.some.injEq] at read
  | binary =>
    have read := congrArg (Nat.ofDigitChars 2 · 0) h
    rwa [fieldText, fieldText, ofDigitChars_binaryText_zero, ofDigitChars_binaryText_zero] at read

theorem comma_notMem_hexDigits {n : Nat} (v : BitVec n) (k : Nat) : ',' ∉ hexDigits v k := by
  have noDigit : ∀ d : BitVec 4, ',' ≠ hexDigit d := by decide
  induction k with
  | zero => exact List.not_mem_nil
  | succ k ih => exact List.not_mem_cons_of_ne_of_not_mem (noDigit _) ih

/-- No spelling of a field has a comma, which separates the fields. -/
theorem comma_notMem_fieldText {n : Nat} (v : BitVec n) (digits : Nat) (m : Spelling) :
    ',' ∉ fieldText v digits m := by
  cases m with
  | decimal =>
    intro h
    exact absurd (List.all_eq_true.mp (all_isDigit_decimalText v digits) ',' h) (by decide)
  | hexadecimal => simp [fieldText, comma_notMem_hexDigits]
  | binary =>
    intro h
    obtain ⟨k, -, hk⟩ := List.mem_map.mp h
    split at hk <;> exact absurd hk (by decide)

/-- The whole form, with the sign's one digit written out. -/
theorem resultText_eq (f : BitFields) (e m : Spelling) : resultText f e m =
    ['(', if f.sign = 1 then '1' else '0', ',', ' '] ++ fieldText f.exponent 2 e ++ [',', ' ']
      ++ fieldText f.fraction 6 m ++ [')'] := by
  rw [resultText, binaryText_sign]
  rfl

theorem sign_eq_of_digit_eq {u v : BitVec 1}
    (h : (if u = 1 then '1' else '0') = if v = 1 then '1' else '0') : u = v := by
  revert u v
  decide

/-- Equal texts in the same spellings are of equal triples: the commas show where each field's text ends. -/
theorem resultText_injective {f g : BitFields} {e m : Spelling} (h : resultText f e m = resultText g e m) :
    f = g := by
  have noComma (f : BitFields) : ',' ∉ ' ' :: (fieldText f.fraction 6 m ++ [')']) := by
    simp [comma_notMem_fieldText]
  simp only [resultText_eq, List.append_assoc, List.cons_append, List.nil_append, List.cons.injEq, true_and] at h
  obtain ⟨hsign, hrest⟩ := h
  obtain ⟨hexponent, -, htail⟩ :=
    (List.append_cons_inj_of_notMem (comma_notMem_fieldText _ _ _) (noComma f)).mp hrest
  have hfraction := List.append_cancel_right (List.cons.inj htail).2
  exact BitFields.ext (sign_eq_of_digit_eq hsign) (fieldText_injective (by decide) e hexponent)
    (fieldText_injective (by decide) m hfraction)

/-- Settles O54: the form, what each spelling reads back as, and that the text determines the triple. -/
theorem resultTextSpellsTheTriple : Obligations.ResultTextSpellsTheTriple :=
  ⟨resultText_eq,
    fun _ => ⟨all_isDigit_decimalText _ _, Nat.ofDigitChars_ten_toDigits,
      all_isDigit_decimalText _ _, Nat.ofDigitChars_ten_toDigits⟩,
    fun _ => ⟨⟨_, rfl, hexDigits_length _ _, readHex_hexDigits_of_le _ (by decide)⟩,
      ⟨_, rfl, hexDigits_length _ _, readHex_hexDigits_of_le _ (by decide)⟩⟩,
    fun _ => ⟨binaryText_length _, ofDigitChars_binaryText_zero _, binaryText_length _,
      ofDigitChars_binaryText_zero _⟩,
    fun _ _ _ _ => resultText_injective⟩

end Sys2Proof.Proofs

namespace Sys2Proof.Proofs

open Sys2Proof.Machine

/-! ### The masks beside each other, the opcode table, single steps -/

/-- Bit by bit, the three masks in place are the ranges of bits of format W32 (R35). -/
theorem inPlace_getLsbD (i : Nat) (h : i < 32) :
    signInPlace.getLsbD i = decide (31 ≤ i) ∧ exponentInPlace.getLsbD i = decide (23 ≤ i ∧ i < 31) ∧
      fractionInPlace.getLsbD i = decide (i < 23) := by
  revert i
  decide

/-- Settles O3: the masks are the ranges below 23, from 23 to 30, and 31, which leave no bit out and share none. -/
theorem fieldsPartitionWord : Obligations.FieldsPartitionWord := by
  refine ⟨by decide, by decide, by decide, by decide, fun i hi => ?_⟩
  obtain ⟨hsign, hexponent, hfraction⟩ := inPlace_getLsbD i hi
  rcases lt_or_ge i 23 with low | notLow
  · simp [hsign, hexponent, hfraction, low, show ¬31 ≤ i by omega, show ¬23 ≤ i by omega]
  · rcases lt_or_ge i 31 with middle | top
    · simp [hsign, hexponent, hfraction, middle, notLow]
    · simp [hsign, hexponent, hfraction, top, notLow]

/-- A row whose match and mask are both 0 asks nothing of any bit (R38). -/
theorem selects_of_zero {r : OpcodeRow} (hfixed : r.fixed = 0) (hmask : r.mask = 0) (w : Word) :
    r.selects w = true := by
  simp [OpcodeRow.selects, hfixed, hmask]

/-- Settles O4: the one row has match 0 and mask 0. -/
theorem oneRowSelectsEveryWord : Obligations.OneRowSelectsEveryWord :=
  ⟨rfl, fun w => ⟨selects_of_zero rfl rfl w, rfl⟩⟩

/-- What a word decodes to has one answer: the evaluation of the word. -/
theorem exec_decode_eq (w : Word) (s : State) : exec (decode w) s = .next (evaluate w s) := execExtract_eq w s

/-- Settles O5: the one answer is an evaluation, after which the ports carry the word's slices. -/
theorem everyWordIsLegal : Obligations.EveryWordIsLegal := by
  intro w s
  refine ⟨(Laws.RoundTrip.extract w).1, evaluate w s, exec_decode_eq w s, ?_, fun u hu => ?_⟩
  · rw [outputs_evaluate, extract_eq_extractSlices]
  · exact (Host.Outcome.next.inj ((exec_decode_eq w s).symm.trans hu)).symm

/-- Settles O29: a step runs what the word taken decodes to, in both cases of taking it. -/
theorem stepRunsDecodedWord : Obligations.StepRunsDecodedWord := by
  refine ⟨fun s w rest h => ?_, fun s h => ?_⟩
  · rw [step, takeLine_cons h]
  · rw [step, takeLine_nil h]

/-- A step takes a line put in front, and runs it on the state as it was. -/
theorem step_presentNext (w : Word) (s : State) : step (presentNext w s) = exec (decode w) s := by
  rw [step, takeLine_presentNext]

/-- The numbers the decoder reads are those that can be placed. -/
theorem decodeTableWord_eq_some_iff {nbits v : Nat} {i : Instr} :
    decodeTableWord nbits v = some i ↔ (nbits = 32 ∧ v < 2 ^ 32) ∧ i = decode (BitVec.ofNat 32 v) := by
  rw [decodeTableWord_eq, Option.ite_none_right_eq_some, Option.some.injEq, eq_comm (b := i), decode]

/-- Settles O30: a number the decoder reads is put in front as its word, and taken by the step; any other is not. -/
theorem placedWordIsRunNext : Obligations.PlacedWordIsRunNext := by
  refine ⟨fun s nbits v i h => ?_, fun s nbits v h => ?_⟩
  · obtain ⟨word, rfl⟩ := decodeTableWord_eq_some_iff.mp h
    rw [withFetchWord_eq, if_pos word, step_presentNext]
  · have noWord := (decodeTableWord_eq_none_iff nbits v).mp h
    rw [withFetchWord_eq, if_neg (by omega)]

end Sys2Proof.Proofs

namespace Sys2Proof.Proofs

open Sys2Proof.Machine

/-! ### `EXTRACT` undoes `PACK`, and so is a bijection -/

/-- `PACK` loses no field: the weighted sum splits into its three digits (R56). -/
theorem extract_pack (f : BitFields) : extract (pack f) = f := by
  have he := f.exponent.isLt
  have hf := f.fraction.isLt
  apply BitFields.ext <;> apply BitVec.eq_of_toNat_eq
  · rw [extract, signOf_toNat, pack_toNat, packNumber]
    omega
  · rw [extract, exponentOf_toNat, pack_toNat, packNumber]
    omega
  · rw [extract, fractionOf_toNat, pack_toNat, packNumber]
    omega

/-- `PACK` is the two-sided inverse of `EXTRACT` (R54). -/
theorem extract_bijective : Function.Bijective extract :=
  Function.bijective_iff_has_inverse.mpr ⟨pack, pack_extract, extract_pack⟩

theorem card_word : Nat.card Word = 4294967296 := by
  rw [Nat.card_congr BitVec.equivFin.toEquiv, Nat.card_fin]
  norm_num

/-- Two triples differ exactly if they differ in some field. -/
theorem bitFields_ne_iff {f g : BitFields} :
    f ≠ g ↔ f.sign ≠ g.sign ∨ f.exponent ≠ g.exponent ∨ f.fraction ≠ g.fraction := by
  rw [Ne, BitFields.ext_iff, not_and_or, not_and_or]

/-- Settles O21: `PACK` is the inverse, and a bijection carries the number of words over to the triples. -/
theorem extractIsBijection : Obligations.ExtractIsBijection :=
  ⟨extract_bijective, fun _ _ h => bitFields_ne_iff.mp (extract_bijective.injective.ne h), card_word,
    (Nat.card_congr (Equiv.ofBijective extract extract_bijective)).symm.trans card_word⟩

/-- Settles O23: each of the two functions undoes the other. -/
theorem packExtractRoundTrips : Obligations.PackExtractRoundTrips := ⟨pack_extract, extract_pack⟩

/-- Settles O19: the widths of the fields bound them, and `EXTRACT` of a packed triple gives any field in its range. -/
theorem fieldRangesAreExact : Obligations.FieldRangesAreExact := by
  refine ⟨fun w => ⟨?_, Nat.le_of_lt_succ (exponentOf w).isLt, Nat.le_of_lt_succ (fractionOf w).isLt⟩,
    fun n hn => ⟨pack ⟨BitVec.ofNat 1 n, 0, 0⟩, ?_⟩, fun n hn => ⟨pack ⟨0, BitVec.ofNat 8 n, 0⟩, ?_⟩,
    fun n hn => ⟨pack ⟨0, 0, BitVec.ofNat 23 n⟩, ?_⟩⟩
  · exact Nat.le_one_iff_eq_zero_or_eq_one.mp (Nat.le_of_lt_succ (signOf w).isLt)
  all_goals
    rw [extract_pack, BitVec.toNat_ofNat]
    exact Nat.mod_eq_of_lt (by omega)

/-! ### `PACK` by shifts: the terms of the OR share no bit -/

/-- `PACK` is the OR of the shifted fields (R55). -/
theorem pack_eq_packByShifts (f : BitFields) : pack f = packByShifts f :=
  (BitVec.setWidth_eq (pack f)).symm.trans BitVec.setWidth_append_append_eq_shiftLeft_setWidth_or

/-- Settles O22: `PACK` is the concatenation by definition, and its form by shifts is the same word. -/
theorem packFormsAgree : Obligations.PackFormsAgree := fun f => ⟨rfl, pack_eq_packByShifts f⟩

/-- A word moved up by `k` places shares no bit with one that fits in `k` bits. -/
theorem shiftLeft_and_eq_zero {u v : Word} {k : Nat} (fits : v.toNat < 2 ^ k) : u <<< k &&& v = 0 := by
  apply BitVec.eq_of_getLsbD_eq
  intro i _
  rw [BitVec.getLsbD_and, BitVec.getLsbD_shiftLeft]
  rcases lt_or_ge i k with below | above
  · simp [below]
  · have clear : v.getLsbD i = false :=
      Nat.testBit_lt_two_pow (fits.trans_le (Nat.pow_le_pow_right (by decide) above))
    simp [clear]

/-- A field of `n` bits, widened and moved up by `k` places, fits in the bits below any place from `k + n` on. -/
theorem shiftLeft_setWidth_toNat_lt {n : Nat} (v : BitVec n) {k m : Nat} (h : k + n ≤ m) :
    (v.setWidth 32 <<< k).toNat < 2 ^ m := calc
  (v.setWidth 32 <<< k).toNat ≤ v.toNat * 2 ^ k := by
    rw [BitVec.toNat_shiftLeft, BitVec.toNat_setWidth, Nat.shiftLeft_eq]
    exact (Nat.mod_le _ _).trans (Nat.mul_le_mul_right _ (Nat.mod_le _ _))
  _ < 2 ^ n * 2 ^ k := Nat.mul_lt_mul_of_pos_right v.isLt (Nat.two_pow_pos k)
  _ = 2 ^ (k + n) := by rw [Nat.add_comm, Nat.pow_add]
  _ ≤ 2 ^ m := Nat.pow_le_pow_right (by decide) h

theorem setWidth_toNat_lt {n : Nat} (v : BitVec n) {m : Nat} (h : n ≤ m) : (v.setWidth 32).toNat < 2 ^ m := by
  have fits := shiftLeft_setWidth_toNat_lt v (k := 0) (m := m) (by omega)
  rwa [BitVec.shiftLeft_zero] at fits

/-- Settles O20: the three forms of `PACK` on the fields of a word; each term of the OR ends below where the next
begins. -/
theorem extractIsLossless : Obligations.ExtractIsLossless :=
  ⟨fun w => ⟨(packNumber_extract w).symm, (pack_extract w).symm.trans (pack_eq_packByShifts _), (pack_extract w).symm⟩,
    fun f => ⟨shiftLeft_and_eq_zero (shiftLeft_setWidth_toNat_lt f.exponent (by decide)),
      shiftLeft_and_eq_zero (setWidth_toNat_lt f.fraction (by decide)),
      shiftLeft_and_eq_zero (setWidth_toNat_lt f.fraction (by decide))⟩⟩

/-! ### Bits: copies, inversion, the bitwise laws -/

theorem extract_and (a b : Word) : extract (a &&& b) = fieldsAnd (extract a) (extract b) := by
  simp only [extract_eq_extractSlices, extractSlices, fieldsAnd, BitVec.extractLsb_and]

theorem extract_or (a b : Word) : extract (a ||| b) = fieldsOr (extract a) (extract b) := by
  simp only [extract_eq_extractSlices, extractSlices, fieldsOr, BitVec.extractLsb_or]

theorem extract_xor (a b : Word) : extract (a ^^^ b) = fieldsXor (extract a) (extract b) := by
  simp only [extract_eq_extractSlices, extractSlices, fieldsXor, BitVec.extractLsb_xor]

theorem extract_allOnes :
    extract (BitVec.allOnes 32) = ⟨BitVec.allOnes 1, BitVec.allOnes 8, BitVec.allOnes 23⟩ := by decide

/-- The complement is XOR with all ones, at every width. -/
theorem extract_not (a : Word) : extract (~~~a) = fieldsNot (extract a) := by
  rw [← BitVec.xor_allOnes, extract_xor, extract_allOnes, fieldsXor, fieldsNot]
  simp only [BitVec.xor_allOnes]

/-- One bit of the word alone is one bit of one field (R58). -/
theorem extract_twoPow {i : Nat} (h : i < 32) : extract (BitVec.twoPow 32 i) =
    if i < 23 then ⟨0, 0, BitVec.twoPow 23 i⟩ else if i < 31 then ⟨0, BitVec.twoPow 8 (i - 23), 0⟩ else ⟨1, 0, 0⟩ := by
  revert i
  decide

/-- Inverting one bit of the word inverts one bit of one field (R58). -/
theorem extract_xor_twoPow (w : Word) {i : Nat} (h : i < 32) : extract (w ^^^ BitVec.twoPow 32 i) =
    if i < 23 then { extract w with fraction := (extract w).fraction ^^^ BitVec.twoPow 23 i }
    else if i < 31 then { extract w with exponent := (extract w).exponent ^^^ BitVec.twoPow 8 (i - 23) }
    else { extract w with sign := ~~~(extract w).sign } := by
  have inverted : (extract w).sign ^^^ 1 = ~~~(extract w).sign := BitVec.xor_allOnes
  rw [extract_xor, extract_twoPow h]
  split
  · simp [fieldsXor]
  · split
    · simp [fieldsXor]
    · simpa [fieldsXor] using inverted

theorem signOf_getLsbD_zero (w : Word) : (signOf w).getLsbD 0 = w.getLsbD 31 := signOf_getLsbD_eq w 0

theorem exponentOf_getLsbD_of_lt (w : Word) {j : Nat} (h : j < 8) :
    (exponentOf w).getLsbD j = w.getLsbD (23 + j) := by
  rw [exponentOf_getLsbD, decide_eq_true h, Bool.true_and]

theorem fractionOf_getLsbD_of_lt (w : Word) {i : Nat} (h : i < 23) : (fractionOf w).getLsbD i = w.getLsbD i := by
  rw [fractionOf_getLsbD, decide_eq_true h, Bool.true_and]

/-- Settles O24: the copies bit by bit, the inversion of one bit, and the four bitwise laws. -/
theorem outputBitsCopyInputBits : Obligations.OutputBitsCopyInputBits :=
  ⟨fun w => ⟨signOf_getLsbD_zero w, fun _ => exponentOf_getLsbD_of_lt w, fun _ => fractionOf_getLsbD_of_lt w⟩,
    fun w _ => extract_xor_twoPow w,
    fun a b => ⟨extract_and a b, extract_or a b, extract_xor a b, extract_not a⟩⟩

end Sys2Proof.Proofs

namespace Sys2Proof.Proofs

open Sys2Proof.Machine

/-! ### Shift and mask, and the slice: at any width of the container -/

/-- The bits of `2 ^ n - 1` are ones below `n`, in a vector that has room for them. -/
theorem lowMask_getLsbD {m n : Nat} (h : n ≤ m) (j : Nat) :
    (BitVec.ofNat m (2 ^ n - 1)).getLsbD j = decide (j < n) := by
  rw [BitVec.getLsbD_ofNat, Nat.testBit_two_pow_sub_one]
  by_cases inside : j < n
  · simp [inside, inside.trans_le h]
  · simp [inside]

theorem and_lowMask_getLsbD {m n : Nat} (v : BitVec m) (h : n ≤ m) (j : Nat) :
    (v &&& BitVec.ofNat m (2 ^ n - 1)).getLsbD j = if j < n then v.getLsbD j else false := by
  rw [BitVec.getLsbD_and, lowMask_getLsbD h]
  split <;> simp [*]

theorem ushiftRight_getLsbD (w : Word) (k j : Nat) :
    (w >>> k).getLsbD j = if j + k ≤ 31 then w.getLsbD (j + k) else false := by
  rw [BitVec.getLsbD_ushiftRight, Nat.add_comm]
  split
  · rfl
  · exact BitVec.getLsbD_of_ge w _ (by omega)

/-- A masked shift, truncated to the mask's ones, is a slice (R48). -/
theorem shiftMask_eq_slice (w : Word) {k n : Nat} (h : k + n ≤ 32) :
    (shiftMask w k (BitVec.ofNat 32 (2 ^ n - 1))).setWidth n = w.extractLsb' k n := by
  apply BitVec.eq_of_getLsbD_eq
  intro i hi
  rw [BitVec.getLsbD_setWidth, shiftMask_getLsbD, lowMask_getLsbD (by omega), BitVec.getLsbD_extractLsb']
  simp [hi]

/-- Settles O14: the two bit lemmas, the slice they give, and the two forms of `EXTRACT`. -/
theorem shiftMaskFormIsSliceForm : Obligations.ShiftMaskFormIsSliceForm :=
  ⟨ushiftRight_getLsbD, fun w _ j h => and_lowMask_getLsbD w h j, fun w _ _ => shiftMask_eq_slice w,
    extract_eq_extractSlices⟩

/-- An arithmetic shift of a sign-filled word moves copies of the sign only to places that the mask clears (D17). -/
theorem signExtend_sshiftRight_and_lowMask (w : Word) {n k m : Nat} (wide : 32 ≤ n) (h : k + m ≤ 32) :
    (w.signExtend n).sshiftRight k &&& BitVec.ofNat n (2 ^ m - 1) = (w.extractLsb' k m).setWidth n := by
  apply BitVec.eq_of_getLsbD_eq
  intro i hi
  rw [and_lowMask_getLsbD _ (by omega), BitVec.getLsbD_setWidth, BitVec.getLsbD_extractLsb']
  by_cases inside : i < m
  · have inWord : k + i < 32 := by omega
    have inContainer : k + i < n := by omega
    rw [if_pos inside, BitVec.getLsbD_sshiftRight, if_pos inContainer, BitVec.getLsbD_signExtend, if_pos inWord]
    simp [inside, inContainer, hi]
  · simp [inside]

/-- The same as a number: the container's width does not show. -/
theorem signExtend_sshiftRight_and_lowMask_toNat (w : Word) {n k m : Nat} (wide : 32 ≤ n) (h : k + m ≤ 32) :
    ((w.signExtend n).sshiftRight k &&& BitVec.ofNat n (2 ^ m - 1)).toNat = (w.extractLsb' k m).toNat := by
  rw [signExtend_sshiftRight_and_lowMask w wide h, BitVec.toNat_setWidth_of_le (by omega)]

/-- Without its mask the arithmetic shift by 31 leaves nothing but copies of bit 31 (D17). -/
theorem sshiftRight_31_eq_allOnes {w : Word} (h : w.getLsbD 31 = true) : w.sshiftRight 31 = BitVec.allOnes 32 := by
  have top : w.msb = true := h
  apply BitVec.eq_of_getLsbD_eq
  intro i hi
  rw [BitVec.getLsbD_sshiftRight, BitVec.getLsbD_allOnes]
  split
  next only =>
    obtain rfl : i = 0 := by omega
    simp [h]
  next => simp [top, hi]

/-- Settles O15: each field is the slice that its mask cuts out of the container; for the fraction, at shift 0. -/
theorem masksUndoSignPropagation : Obligations.MasksUndoSignPropagation := by
  refine ⟨fun w n wide => ⟨?_, ?_, ?_⟩, fun _ => sshiftRight_31_eq_allOnes⟩
  · rw [extract, signOf_eq_slice]
    exact signExtend_sshiftRight_and_lowMask_toNat w wide (m := 1) (by decide)
  · rw [extract, exponentOf_eq_slice]
    exact signExtend_sshiftRight_and_lowMask_toNat w wide (m := 8) (by decide)
  · rw [extract, fractionOf_eq_slice, ← BitVec.sshiftRight_zero (x := w.signExtend n)]
    exact signExtend_sshiftRight_and_lowMask_toNat w wide (m := 23) (by decide)

end Sys2Proof.Proofs

namespace Sys2Proof.Proofs

open Sys2Proof.Machine

/-! ### The answer of `EXTRACT`, its ports and its frame -/

@[simp] theorem signPort_evaluate (w : Word) (s : State) : signPort (evaluate w s) = signOf w := rfl
@[simp] theorem exponentPort_evaluate (w : Word) (s : State) : exponentPort (evaluate w s) = exponentOf w := rfl
@[simp] theorem fractionPort_evaluate (w : Word) (s : State) : fractionPort (evaluate w s) = fractionOf w := rfl

/-- The one answer of `EXTRACT` is an evaluation. -/
theorem exec_extract_eq (w : Word) (s : State) : exec (.extract w) s = .next (evaluate w s) := exec_decode_eq w s

/-- What holds after an evaluation holds of a next state of `EXTRACT`. -/
theorem exists_exec_extract {w : Word} {s : State} {P : State → Prop} (h : P (evaluate w s)) :
    ∃ t, exec (.extract w) s = .next t ∧ P t :=
  ⟨_, exec_extract_eq w s, h⟩

/-- What holds after two evaluations holds of next states of `EXTRACT`. -/
theorem exists_exec_extract₂ {v w : Word} {s : State} {P : State → State → Prop}
    (h : P (evaluate v s) (evaluate w s)) :
    ∃ t u, exec (.extract v) s = .next t ∧ exec (.extract w) s = .next u ∧ P t u :=
  ⟨_, _, exec_extract_eq v s, exec_extract_eq w s, h⟩

/-- Settles O8: the ports carry the fields, which are the slices. -/
theorem extractGivesThreeFields : Obligations.ExtractGivesThreeFields := by
  refine ⟨fun w s => exists_exec_extract ?_,
    fun s => ⟨exists_exec_extract ?_, exists_exec_extract ?_, exists_exec_extract ?_⟩⟩
  · exact ⟨rfl, signOf_eq_slice w, rfl, exponentOf_eq_slice w, rfl, fractionOf_eq_slice w⟩
  all_goals
    rw [outputs_evaluate]
    decide

/-- The state after an evaluation, field by field. -/
theorem evaluate_eq (w : Word) (s : State) : evaluate w s =
    { block := s.block, bits := w, stimulus := s.stimulus, observed := s.observed ++ [expectedObservation w] } := by
  rw [← evaluate_observed_expected]
  rfl

/-- Settles O9: the answer is an evaluation, whose state is known field by field. -/
theorem extractNextStateExact : Obligations.ExtractNextStateExact := fun w s =>
  (exec_extract_eq w s).trans (congrArg _ (evaluate_eq w s))

/-- Settles O16: the answer is an evaluation, which is neither a fault nor a refusal. -/
theorem extractIsTotal : Obligations.ExtractIsTotal := by
  intro w s
  rw [exec_extract_eq]
  exact ⟨⟨_, rfl⟩, nofun, nofun⟩

/-- Settles O18: what the ports carry after an evaluation is a function of its word. -/
theorem extractDependsOnWordAlone : Obligations.ExtractDependsOnWordAlone := by
  intro w v s u
  refine ⟨_, _, _, exec_extract_eq w s, exec_extract_eq v u, exec_extract_eq w _, ?_⟩
  rw [outputs_evaluate, outputs_evaluate]

/-- `EXTRACT` of a packed triple puts that triple on the ports. -/
theorem outputs_evaluate_pack (f : BitFields) (s : State) : outputs (evaluate (pack f) s) = f := by
  rw [outputs_evaluate, extract_pack]

/-- Any triple's word comes out as the triple, and by the three selections. -/
theorem exists_exec_extract_pack (f : BitFields) (s : State) :
    ∃ t, exec (.extract (pack f)) s = .next t ∧ outputs t = f ∧ outputs t = extractSlices (pack f) :=
  exists_exec_extract ⟨outputs_evaluate_pack f s, (outputs_evaluate _ s).trans (extract_eq_extractSlices _)⟩

/-- Settles O17: the words in question are packed triples like any other. -/
theorem noWordIsSpecial : Obligations.NoWordIsSpecial := fun sg f s =>
  ⟨exists_exec_extract_pack ⟨sg, 255, f⟩ s, exists_exec_extract_pack ⟨sg, 0, f⟩ s⟩

/-! ### Runs -/

/-- No run stops, by induction on its steps. -/
theorem completes_runSteps (k : Nat) (s : State) : Completes (runSteps k s) := by
  induction k generalizing s with
  | zero => exact ⟨s, runSteps_zero s⟩
  | succ k ih =>
    rw [runSteps_succ]
    exact ih _

/-- Settles O31: a step is an evaluation, and so a run goes on. -/
theorem noRunStops : Obligations.NoRunStops := ⟨fun s => ⟨_, step_eq s⟩, completes_runSteps⟩

/-! ### Output `sign` -/

/-- The sign is what the shift by 31 leaves: on 32 bits its mask is redundant (R45). -/
theorem ushiftRight_31_eq (w : Word) : w >>> 31 = (signOf w).setWidth 32 := by
  apply BitVec.eq_of_toNat_eq
  rw [BitVec.toNat_ushiftRight, Nat.shiftRight_eq_div_pow, BitVec.toNat_setWidth_of_le (by decide), signOf_toNat]

theorem signOf_eq_one {w : Word} (h : 2147483648 ≤ w.toNat) : signOf w = 1 := by
  have hw := w.isLt
  apply BitVec.eq_of_toNat_eq
  rw [signOf_toNat, show (1 : BitVec 1).toNat = 1 from rfl]
  omega

theorem signOf_eq_zero {w : Word} (h : w.toNat < 2147483648) : signOf w = 0 :=
  BitVec.eq_of_toNat_eq ((signOf_toNat w).trans (Nat.div_eq_of_lt h))

/-- Bits 30 to 0 do not matter to the sign. -/
theorem signOf_congr {v w : Word} (h : v.getLsbD 31 = w.getLsbD 31) : signOf v = signOf w := by
  apply BitVec.eq_of_getLsbD_eq
  intro i _
  rw [signOf_getLsbD_eq, signOf_getLsbD_eq, h]

/-- Settles O10: the sign as a bit, as a number and by its threshold. -/
theorem signOutput : Obligations.SignOutput := by
  intro s
  refine ⟨fun w => exists_exec_extract ?_, fun v w h => exists_exec_extract₂ (signOf_congr h),
    exists_exec_extract ?_, exists_exec_extract ?_⟩
  · exact ⟨rfl, signOf_getLsbD_zero w, signOf_toNat w, ushiftRight_31_eq w, signOf_eq_one, signOf_eq_zero⟩
  · rw [outputs_evaluate]
    decide
  · exact signOf_eq_one (w := 0xC0000000) (by decide)

/-! ### Output `exponent` -/

theorem exponentOf_eq_iff (w : Word) (e : BitVec 8) : exponentOf w = e ↔ w.toNat / 2 ^ 23 % 256 = e.toNat := by
  rw [← BitVec.toNat_inj, exponentOf_toNat]

/-- The words with exponent 0: those below the first normal, of either sign. -/
theorem exponentOf_eq_zero_iff (w : Word) :
    exponentOf w = 0 ↔ w.toNat ≤ 0x007FFFFF ∨ 0x80000000 ≤ w.toNat ∧ w.toNat ≤ 0x807FFFFF := by
  have hw := w.isLt
  rw [exponentOf_eq_iff, show (0 : BitVec 8).toNat = 0 from rfl]
  omega

/-- The words with exponent 255: those from infinity on, of either sign. -/
theorem exponentOf_eq_255_iff (w : Word) :
    exponentOf w = 255 ↔ 0x7F800000 ≤ w.toNat ∧ w.toNat ≤ 0x7FFFFFFF ∨ 0xFF800000 ≤ w.toNat := by
  have hw := w.isLt
  rw [exponentOf_eq_iff, show (255 : BitVec 8).toNat = 255 from rfl]
  omega

/-- Bit 31 and bits 22 to 0 do not matter to the exponent. -/
theorem exponentOf_congr {v w : Word} (h : ∀ j < 8, v.getLsbD (23 + j) = w.getLsbD (23 + j)) :
    exponentOf v = exponentOf w := by
  apply BitVec.eq_of_getLsbD_eq
  intro j hj
  rw [exponentOf_getLsbD_of_lt v hj, exponentOf_getLsbD_of_lt w hj, h j hj]

/-- Settles O11: the exponent bit by bit, as a number, and the words where it is at an end of its range. -/
theorem exponentOutput : Obligations.ExponentOutput := by
  intro s
  refine ⟨fun w => exists_exec_extract ?_, fun v w h => exists_exec_extract₂ (exponentOf_congr h),
    exists_exec_extract ?_, exists_exec_extract ?_, exists_exec_extract ?_⟩
  · exact ⟨rfl, fun _ => exponentOf_getLsbD_of_lt w, exponentOf_toNat w, ushiftRight_getLsbD w 23 8,
      exponentOf_eq_zero_iff w, exponentOf_eq_255_iff w⟩
  all_goals
    rw [exponentPort_evaluate]
    decide

/-! ### Output `fraction` -/

/-- The words with fraction 0: those whose low 23 bits are clear. -/
theorem fractionOf_eq_zero_iff (w : Word) : fractionOf w = 0 ↔ 0x00800000 ∣ w.toNat := by
  rw [← BitVec.toNat_inj, fractionOf_toNat, Nat.dvd_iff_mod_eq_zero]
  rfl

/-- The words with fraction 0x7FFFFF: those whose low 23 bits are set. -/
theorem fractionOf_eq_allOnes_iff (w : Word) : fractionOf w = 0x7FFFFF ↔ ∀ i < 23, w.getLsbD i = true := by
  have ones : (0x7FFFFF : BitVec 23) = BitVec.allOnes 23 := rfl
  rw [ones, BitVec.eq_of_getLsbD_eq_iff]
  refine forall₂_congr fun i hi => ?_
  rw [fractionOf_getLsbD_of_lt w hi, BitVec.getLsbD_allOnes, decide_eq_true hi]

/-- Bits 31 to 23 do not matter to the fraction. -/
theorem fractionOf_congr {v w : Word} (h : ∀ i < 23, v.getLsbD i = w.getLsbD i) : fractionOf v = fractionOf w := by
  apply BitVec.eq_of_getLsbD_eq
  intro i hi
  rw [fractionOf_getLsbD_of_lt v hi, fractionOf_getLsbD_of_lt w hi, h i hi]

/-- Settles O12: the fraction bit by bit, as a number, and the words where it is at an end of its range. -/
theorem fractionOutput : Obligations.FractionOutput := by
  intro s
  refine ⟨fun w => exists_exec_extract ?_, fun v w h => exists_exec_extract₂ (fractionOf_congr h),
    exists_exec_extract ?_⟩
  · exact ⟨rfl, fun _ => fractionOf_getLsbD_of_lt w, fractionOf_toNat w, fractionOf_eq_zero_iff w,
      fractionOf_eq_allOnes_iff w⟩
  · rw [fractionPort_evaluate]
    decide

end Sys2Proof.Proofs

namespace Sys2Proof.Proofs

open Sys2Proof.Machine

/-! ### The sign value -/

theorem signValueOf_zero : signValueOf 0 = 1 := pow_zero (-1)

theorem signValueOf_one : signValueOf 1 = -1 := pow_one (-1)

theorem signValueOf_eq_one_or_neg_one (sign : BitVec 1) : signValueOf sign = 1 ∨ signValueOf sign = -1 := by
  rcases BitVec.eq_zero_or_eq_one sign with rfl | rfl
  · exact .inl signValueOf_zero
  · exact .inr signValueOf_one

theorem abs_signValueOf (sign : BitVec 1) : |signValueOf sign| = 1 :=
  (abs_eq zero_le_one).mpr (signValueOf_eq_one_or_neg_one sign)

theorem signValueOf_not (sign : BitVec 1) : signValueOf (~~~sign) = -signValueOf sign := by
  rcases BitVec.eq_zero_or_eq_one sign with rfl | rfl
  · exact signValueOf_one.trans (neg_inj.mpr signValueOf_zero).symm
  · exact signValueOf_zero.trans (neg_eq_iff_eq_neg.mpr signValueOf_one).symm

/-- There are two signs, and their values differ. -/
theorem signValueOf_injective : Function.Injective signValueOf := by
  unfold Function.Injective
  decide

/-- Settles O43: the two signs and their values. -/
theorem signValueIsPlusOrMinusOne : Obligations.SignValueIsPlusOrMinusOne := fun sign =>
  ⟨fun zero => zero ▸ signValueOf_zero, fun one => one ▸ signValueOf_one, signValueOf_eq_one_or_neg_one sign,
    signValueOf_one⟩

/-! ### The exponent value -/

/-- The exponent value by the signed difference `n` (R62). -/
theorem exponentValueOf_eq_zpow {e : BitVec 8} {n : ℤ} (h : (e.toNat : ℤ) - 127 = n) :
    exponentValueOf e = (2 : ℚ) ^ n := by
  rw [exponentValueOf_eq, h]

theorem exponentValueOf_zero : exponentValueOf 0 = (2 : ℚ) ^ (-127 : ℤ) := exponentValueOf_eq_zpow rfl

theorem exponentValueOf_127 : exponentValueOf 127 = 1 := (exponentValueOf_eq_zpow rfl).trans (zpow_zero 2)

theorem exponentValueOf_255 : exponentValueOf 255 = (2 : ℚ) ^ (128 : ℤ) := exponentValueOf_eq_zpow rfl

theorem exponentValueOf_pos (e : BitVec 8) : 0 < exponentValueOf e := zpow_pos two_pos _

theorem exponentValueOf_le {d e : BitVec 8} (h : d ≤ e) : exponentValueOf d ≤ exponentValueOf e := by
  rw [exponentValueOf_eq, exponentValueOf_eq]
  exact zpow_le_zpow_right₀ one_le_two (by bv_omega)

/-- One more in the exponent field is one more factor 2, unless the field wraps. -/
theorem exponentValueOf_add_one {e : BitVec 8} (h : e ≠ 255) : exponentValueOf (e + 1) = 2 * exponentValueOf e := by
  have noWrap : ((e + 1).toNat : ℤ) - 127 = 1 + ((e.toNat : ℤ) - 127) := by bv_omega
  rw [exponentValueOf_eq_zpow noWrap, zpow_one_add₀ two_ne_zero, exponentValueOf_eq]

/-- A larger exponent at least doubles the value. -/
theorem two_mul_exponentValueOf_le {d e : BitVec 8} (h : d < e) : 2 * exponentValueOf d ≤ exponentValueOf e := by
  rw [← exponentValueOf_add_one (by bv_omega : d ≠ 255)]
  exact exponentValueOf_le (by bv_omega)

theorem exponentValueOf_lt_one {e : BitVec 8} (h : e < 127) : exponentValueOf e < 1 := by
  have doubled := two_mul_exponentValueOf_le h
  rw [exponentValueOf_127] at doubled
  linarith [exponentValueOf_pos e]

/-- Settles O48: a power of 2 is positive. -/
theorem exponentValuePositive : Obligations.ExponentValuePositive := exponentValueOf_pos

/-- Settles O44: the value by its signed difference; below the bias a doubling still does not exceed 1. -/
theorem exponentValueIsSignedPower : Obligations.ExponentValueIsSignedPower := by
  refine ⟨fun e => ⟨exponentValueOf_eq e, by omega, by omega,
      fun below => ⟨exponentValueOf_pos e, exponentValueOf_lt_one below⟩⟩,
    exponentValueOf_127, ?_, ?_, exponentValueOf_zero, exponentValueOf_255⟩
  · exact (exponentValueOf_eq_zpow rfl).trans (zpow_one 2)
  · exact (exponentValueOf_eq_zpow (n := -1) rfl).trans (by norm_num)

/-! ### The mantissa value -/

/-- The weights of all 23 bits add up to the whole fraction over 2^23 (R63). -/
theorem mantissaValueOf_eq (f : BitVec 23) : mantissaValueOf f = 1 + (f.toNat : ℚ) / 2 ^ 23 := by
  rw [mantissaValueOf, weights_below, Nat.mod_eq_of_lt f.isLt]

theorem mantissaValueOf_eq_sum_of_perm (f : BitVec 23) {order : List Nat} (h : order.Perm (List.range 23)) :
    mantissaValueOf f = 1 + (order.map fun i => if f.getLsbD i then (2 : ℚ) ^ ((i : ℤ) - 23) else 0).sum := by
  rw [(h.map _).sum_eq]
  rfl

theorem one_le_mantissaValueOf (f : BitVec 23) : 1 ≤ mantissaValueOf f := by
  rw [mantissaValueOf_eq, le_add_iff_nonneg_right]
  positivity

theorem mantissaValueOf_pos (f : BitVec 23) : 0 < mantissaValueOf f := one_pos.trans_le (one_le_mantissaValueOf f)

theorem mantissaValueOf_injective : Function.Injective mantissaValueOf := by
  intro f g same
  rw [mantissaValueOf_eq, mantissaValueOf_eq, add_right_inj, div_left_inj' (by norm_num), Nat.cast_inj] at same
  exact BitVec.eq_of_toNat_eq same

theorem mantissaValueOf_zero : mantissaValueOf 0 = 1 := by
  rw [mantissaValueOf_eq]
  norm_num

theorem mantissaValueOf_8388607 : mantissaValueOf 8388607 = 2 - (2 : ℚ) ^ (-23 : ℤ) := by
  rw [mantissaValueOf_eq, show (8388607 : BitVec 23).toNat = 8388607 from rfl]
  norm_num

theorem mantissaValueOf_0x400000 : mantissaValueOf 0x400000 = 3 / 2 := by
  rw [mantissaValueOf_eq, show (0x400000 : BitVec 23).toNat = 0x400000 from rfl]
  norm_num

/-- The largest mantissa value is that of the largest fraction. -/
theorem mantissaValueOf_le (f : BitVec 23) : mantissaValueOf f ≤ 2 - (2 : ℚ) ^ (-23 : ℤ) := by
  rw [← mantissaValueOf_8388607, mantissaValueOf_eq, mantissaValueOf_eq]
  gcongr
  bv_omega

theorem mantissaValueOf_lt_two (f : BitVec 23) : mantissaValueOf f < 2 :=
  (mantissaValueOf_le f).trans_lt (sub_lt_self 2 (by positivity))

/-- Settles O45: the closed form, and the sum in any order, since a permutation keeps a sum. -/
theorem mantissaValueClosedForm : Obligations.MantissaValueClosedForm :=
  ⟨fun f => ⟨mantissaValueOf_eq f, fun _ => mantissaValueOf_eq_sum_of_perm f⟩,
    mantissaValueOf_zero, mantissaValueOf_8388607, mantissaValueOf_0x400000⟩

/-- Settles O47: no fraction takes anything from the leading 1, and the largest one stays below 2. -/
theorem mantissaValueRange : Obligations.MantissaValueRange := fun f =>
  ⟨one_le_mantissaValueOf f, mantissaValueOf_le f, mantissaValueOf_lt_two f⟩

/-! ### The reconstructed value -/

/-- The first closed form of R65. -/
theorem reconstruct_eq_power_mul (f : BitFields) : reconstruct f =
    (-1) ^ f.sign.toNat * 2 ^ ((f.exponent.toNat : ℤ) - 127) * (1 + (f.fraction.toNat : ℚ) / 2 ^ 23) := by
  rw [reconstruct_eq_factors, mantissaValueOf_eq, exponentValueOf_eq, signValueOf, mul_right_comm]

/-- The second closed form of R65: the 2^23 under the fraction goes into the power. -/
theorem reconstruct_eq_closedForm (f : BitFields) : reconstruct f = closedForm f := by
  have power : (2 : ℚ) ^ ((f.exponent.toNat : ℤ) - 150) = 2 ^ ((f.exponent.toNat : ℤ) - 127) / 2 ^ 23 := by
    rw [← zpow_natCast, ← zpow_sub₀ two_ne_zero, sub_sub]
    rfl
  rw [reconstruct_eq_power_mul, closedForm, power]
  ring

/-- The sign does not show in the magnitude. -/
theorem abs_reconstruct (f : BitFields) :
    |reconstruct f| = mantissaValueOf f.fraction * exponentValueOf f.exponent := by
  rw [reconstruct_eq_factors, abs_mul, abs_mul, abs_signValueOf, one_mul, abs_of_pos (mantissaValueOf_pos _),
    abs_of_pos (exponentValueOf_pos _)]

theorem reconstruct_eq_sign_mul_abs (f : BitFields) : reconstruct f = signValueOf f.sign * |reconstruct f| := by
  rw [abs_reconstruct, reconstruct_eq_factors, mul_assoc]

theorem abs_reconstruct_pos (f : BitFields) : 0 < |reconstruct f| := by
  rw [abs_reconstruct]
  exact mul_pos (mantissaValueOf_pos _) (exponentValueOf_pos _)

theorem exponentValueOf_le_abs_reconstruct (f : BitFields) : exponentValueOf f.exponent ≤ |reconstruct f| := by
  rw [abs_reconstruct]
  exact le_mul_of_one_le_left (exponentValueOf_pos _).le (one_le_mantissaValueOf _)

theorem abs_reconstruct_lt (f : BitFields) : |reconstruct f| < 2 * exponentValueOf f.exponent := by
  rw [abs_reconstruct]
  exact mul_lt_mul_of_pos_right (mantissaValueOf_lt_two _) (exponentValueOf_pos _)

/-- The smallest magnitude is that of exponent 0 and fraction 0. -/
theorem le_abs_reconstruct (f : BitFields) : (2 : ℚ) ^ (-127 : ℤ) ≤ |reconstruct f| := by
  rw [← exponentValueOf_zero]
  exact (exponentValueOf_le (by bv_omega)).trans (exponentValueOf_le_abs_reconstruct f)

/-- The largest magnitude is that of the largest exponent and the largest fraction. -/
theorem abs_reconstruct_le (f : BitFields) : |reconstruct f| ≤ (2 - (2 : ℚ) ^ (-23 : ℤ)) * 2 ^ 128 := by
  have largest : exponentValueOf f.exponent ≤ 2 ^ 128 :=
    (exponentValueOf_le (by bv_omega : f.exponent ≤ 255)).trans_eq exponentValueOf_255
  rw [abs_reconstruct]
  exact mul_le_mul (mantissaValueOf_le _) largest (exponentValueOf_pos _).le (by norm_num)

/-- Without the sign bit the value is the magnitude. -/
theorem reconstruct_of_sign_zero (e : BitVec 8) (f : BitVec 23) :
    reconstruct ⟨0, e, f⟩ = mantissaValueOf f * exponentValueOf e := by
  rw [reconstruct_eq_factors, signValueOf_zero, one_mul]

theorem reconstruct_zero : reconstruct ⟨0, 0, 0⟩ = (2 : ℚ) ^ (-127 : ℤ) := by
  rw [reconstruct_of_sign_zero, mantissaValueOf_zero, one_mul, exponentValueOf_zero]

/-- Settles O46: the closed forms and the bounds, each with its witness. -/
theorem reconstructedValueClosedForm : Obligations.ReconstructedValueClosedForm := by
  refine ⟨fun f => ⟨reconstruct_eq_power_mul f, reconstruct_eq_closedForm f, abs_pos.mp (abs_reconstruct_pos f),
    le_abs_reconstruct f, abs_reconstruct_le f⟩, reconstruct_zero, ?_⟩
  rw [reconstruct_of_sign_zero, mantissaValueOf_8388607, exponentValueOf_255]
  rfl

/-- Settles O49: the first closed form at the two exponents, and the four words by their triples. -/
theorem edgeExponentsAreNotSpecial : Obligations.EdgeExponentsAreNotSpecial := by
  refine ⟨fun f h => ?_, fun f h => ⟨?_, ?_⟩, ?_, ?_, ?_, ?_⟩
  · rw [reconstruct_eq_power_mul, h]
    rfl
  · rw [reconstruct_eq_power_mul, h]
    rfl
  · rw [← exponentValueOf_255, ← h]
    exact exponentValueOf_le_abs_reconstruct f
  · exact reconstruct_zero
  · rw [show extract 0x00000001 = ⟨0, 0, 1⟩ by decide, reconstruct_eq_closedForm]
    simp [closedForm]
  · rw [show extract 0x7F800000 = ⟨0, 255, 0⟩ by decide, reconstruct_of_sign_zero, mantissaValueOf_zero,
      exponentValueOf_255]
    norm_num
  · rw [show extract 0x7FC00000 = ⟨0, 255, 0x400000⟩ by decide, reconstruct_of_sign_zero,
      mantissaValueOf_0x400000, exponentValueOf_255]
    rfl

/-! ### The value determines the triple -/

/-- A larger exponent is a larger magnitude, since a mantissa stays below 2. -/
theorem abs_reconstruct_lt_of_exponent_lt {f g : BitFields} (h : f.exponent < g.exponent) :
    |reconstruct f| < |reconstruct g| :=
  calc |reconstruct f| < 2 * exponentValueOf f.exponent := abs_reconstruct_lt f
    _ ≤ exponentValueOf g.exponent := two_mul_exponentValueOf_le h
    _ ≤ |reconstruct g| := exponentValueOf_le_abs_reconstruct g

theorem exponent_eq_of_abs_reconstruct_eq {f g : BitFields} (h : |reconstruct f| = |reconstruct g|) :
    f.exponent = g.exponent := by
  refine BitVec.le_antisymm (BitVec.not_lt.mp fun greater => ?_) (BitVec.not_lt.mp fun less => ?_)
  · exact (abs_reconstruct_lt_of_exponent_lt greater).ne' h
  · exact (abs_reconstruct_lt_of_exponent_lt less).ne h

/-- The magnitude gives the exponent, then the mantissa; the rest is the sign. -/
theorem reconstruct_injective : Function.Injective reconstruct := by
  intro f g same
  have magnitude : |reconstruct f| = |reconstruct g| := congrArg abs same
  have exponent := exponent_eq_of_abs_reconstruct_eq magnitude
  have mantissa : mantissaValueOf f.fraction = mantissaValueOf g.fraction := by
    rw [abs_reconstruct, abs_reconstruct, exponent] at magnitude
    exact mul_right_cancel₀ (exponentValueOf_pos _).ne' magnitude
  have sign : signValueOf f.sign = signValueOf g.sign := by
    rw [reconstruct_eq_sign_mul_abs f, reconstruct_eq_sign_mul_abs g, magnitude] at same
    exact mul_right_cancel₀ (abs_reconstruct_pos g).ne' same
  exact BitFields.ext (signValueOf_injective sign) exponent (mantissaValueOf_injective mantissa)

/-- Settles O50: the value determines the triple, and the triple the word. -/
theorem reconstructedValueDeterminesWord : Obligations.ReconstructedValueDeterminesWord :=
  fun _ _ same => extract_bijective.injective (reconstruct_injective same)

/-- Settles O51: each edit changes one factor of the value. -/
theorem editedFieldsNegateAndDouble : Obligations.EditedFieldsNegateAndDouble := by
  refine ⟨fun f => ?_, fun f notLargest => ?_⟩
  · rw [reconstruct_eq_factors, reconstruct_eq_factors, signValueOf_not, neg_mul, neg_mul]
  · rw [reconstruct_eq_factors, reconstruct_eq_factors, exponentValueOf_add_one notLargest, mul_left_comm]

end Sys2Proof.Proofs

namespace Sys2Proof.Proofs

open Sys2Proof.Machine

/-! ### What the ports carry while a word is driven -/

/-- While a word is driven the ports carry its three slices, from any state. -/
theorem outputs_drive_eq_extractSlices (w : Word) (s : State) : outputs (drive w s) = extractSlices w :=
  (outputs_drive w s).trans (extract_eq_extractSlices w)

/-- A driven word shows the result of an evaluation only if it is the evaluated word: `EXTRACT` loses no bit (R54). -/
theorem outputs_drive_eq_outputs_evaluate_iff (v w : Word) (s t : State) :
    outputs (drive v t) = outputs (evaluate w s) ↔ v = w := by
  rw [outputs_drive, outputs_evaluate, extract_bijective.injective.eq_iff]

/-- Settles O28: the ports follow the driven word, and two words show the same result only if they are one. -/
theorem resultLivesWithItsWord : Obligations.ResultLivesWithItsWord := fun w v s =>
  exists_exec_extract ⟨outputs_drive_eq_extractSlices v _, outputs_drive_eq_outputs_evaluate_iff v w s _⟩

/-- Settles O26: the ports follow the word a reset leaves on the input port, as from any other state. -/
theorem resetForcesNoOutput : Obligations.ResetForcesNoOutput := by
  refine ⟨fun w0 => outputs_drive_eq_extractSlices w0 State.reset, ?_⟩
  rw [outputs_drive]
  decide

end Sys2Proof.Proofs

namespace Sys2Proof.Proofs

open Sys2Proof.Machine

/-- Settles O7: a number below 2 ^ 32 decodes to `EXTRACT` of itself; the fields of the five words are evaluated. -/
theorem fewWordsDecodeAsListed : Obligations.FewWordsDecodeAsListed := by
  refine ⟨decodeTableWord_of_lt ?_, ?_, decodeTableWord_of_lt ?_, ?_, decodeTableWord_of_lt ?_, ?_,
    decodeTableWord_of_lt ?_, ?_, decodeTableWord_of_lt ?_, ?_⟩
  all_goals decide

end Sys2Proof.Proofs
